-- ==== Sys2Proof/Word.lean ====
section
/-! DEFINITION. The word and byte types of the datapath (41_word_datapath.md R140; 00_scope.md R8, R9), and the
two groups of words the spec names: a key and a block. -/

namespace Sys2Proof

/-- A data word: "an unsigned integer in [0, 2^32), held in 32 bits" (R140). -/
abbrev Word := BitVec 32

/-- A byte of a byte string or of a message buffer (R9). -/
abbrev Byte := BitVec 8

/-- A byte string; `B[i]` is the byte at index i, from 0 (R9). -/
abbrev Bytes := List Byte

/-- A key: "four unsigned 32-bit words (k0..k3)" (00_scope.md R5); the registers KEY0 to KEY3 (10_state.md R33). -/
structure Key where
  k0 : Word
  k1 : Word
  k2 : Word
  k3 : Word
deriving DecidableEq, Repr

/-- A block: "two unsigned 32-bit words (v0, v1)" (00_scope.md R5); the register pairs DIN and DOUT (10_state.md
R34, R35). -/
structure Block where
  v0 : Word
  v1 : Word
deriving DecidableEq, Repr

end Sys2Proof
end

