-- ==== Sys2Proof/Machine/Datapath.lean ====
section
/-! DEFINITION. The datapath primitives of 41_word_datapath.md: pure, total, no flags (R149). -/

namespace Sys2Proof.Machine

/-- ADD32 (R141): the carry out of bit 31 is discarded. -/
def add32 (a b : Word) : Word := a + b

/-- SUB32 (R142): the borrow is discarded. -/
def sub32 (a b : Word) : Word := a - b

/-- XOR32 (R143). -/
def xor32 (a b : Word) : Word := a ^^^ b

/-- SHL4 (R144): a logical shift by the constant 4. -/
def shl4 (y : Word) : Word := y <<< 4

/-- SHR5 (R145): a logical shift by the constant 5; zeros enter at the top. -/
def shr5 (y : Word) : Word := y >>> 5

/-- DELTA (42_round_function.md R164). -/
def delta : Word := 0x9E3779B9#32

/-- MULD (R146): `(0x9E3779B9 * n) mod 2^32`. -/
def muld (n : Nat) : Word := BitVec.ofNat 32 (0x9E3779B9 * n)

/-- BE32 (R147): `b[0] * 2^24 + b[1] * 2^16 + b[2] * 2^8 + b[3]`. The spec applies it to 4 bytes; a byte that a shorter
string lacks counts as 0x00, which 30_encoding.md R97 asks for in LOAD (log 10). -/
def be32 (b : Bytes) : Word :=
  BitVec.ofNat 32 ((b.getD 0 0#8).toNat * 2 ^ 24 + (b.getD 1 0#8).toNat * 2 ^ 16 + (b.getD 2 0#8).toNat * 2 ^ 8 +
    (b.getD 3 0#8).toNat)

/-- UNBE32 (R148): the most significant byte first. -/
def unbe32 (w : Word) : Bytes :=
  [w.extractLsb' 24 8, w.extractLsb' 16 8, w.extractLsb' 8 8, w.extractLsb' 0 8]

/-- `B[a ..< b]` (00_scope.md R9): the bytes at the indices a to b-1. -/
def slice (d : Bytes) (a b : Nat) : Bytes := (d.drop a).take (b - a)

end Sys2Proof.Machine
end

