-- ==== Sys2Proof/Config.lean ====
section
/-! DEFINITION. The implementation parameters of 00_scope.md R6 as plain data, and the free values of the model:
the bytes the two message buffers hold after a reset (70_reset_and_hazards.md R292). -/

namespace Sys2Proof

/-- The open parameters a model takes as arguments (00_scope.md R6; 93_implementation_defined.md U8, U9). They are
fixed for one machine: no step changes them. DESIGN CHOICE (log 1): they stand in State as plain data, so a statement
over every state is a statement over every legal machine. -/
structure Params where
  /-- `MSG_BYTES`, the capacity in bytes of IBUF and of OBUF, and the value of the register CAP (10_state.md R22). -/
  msgBytes : Nat
  /-- `BASE`, the host's address of offset 0 of the core's region (20_memory.md R61). -/
  base : Nat
deriving DecidableEq, Repr

/-- The parameters of the machine that `State.reset` is: MSG_BYTES = 1024, as "every example in this spec uses"
(00_scope.md R6), and BASE = 0. DESIGN CHOICE (log 1). -/
def Params.ofExamples : Params := { msgBytes := 1024, base := 0 }

/-- The byte IBUF holds at an index after a reset, a free draw: the first argument counts the resets
(70_reset_and_hazards.md R292: "A model treats each byte as a free draw at reset"). It has no body: nothing can know a
value of it (log 2). -/
opaque Config.ibufDraw : Nat → Nat → Byte

/-- The byte OBUF holds at an index after a reset, a free draw, as `Config.ibufDraw` (R292; log 2). -/
opaque Config.obufDraw : Nat → Nat → Byte

end Sys2Proof
end

