-- ==== Sys2Proof/Machine/Bus.lean ====
section
/-! DEFINITION. The host port: transactions and answers (20_memory.md R60), the registers by name (10_state.md, the
table of section 1), and the events whose total order an execution is (20_memory.md R73). -/

namespace Sys2Proof.Machine

/-- A request `(kind, offset, size, wdata)` on the slave port: "offset a 14-bit byte offset from BASE, size in bytes,
and wdata a 32-bit word for a write" (20_memory.md R60). A read carries no wdata. -/
inductive Transaction where
  | read (offset : BitVec 14) (size : Nat)
  | write (offset : BitVec 14) (size : Nat) (wdata : Word)
deriving DecidableEq, Repr

/-- The response of the port, "resp in (OKAY, ERROR)" (20_memory.md R60). -/
inductive Resp where
  | okay
  | error
deriving DecidableEq, Repr

/-- The core's answer `(resp, rdata)`, "rdata a 32-bit word for a read" (20_memory.md R60); none for a write (log 9). -/
structure Answer where
  resp : Resp
  rdata : Option Word
deriving DecidableEq, Repr

/-- One event of the total order "of host transactions, completion steps and reset events" (20_memory.md R73). -/
inductive Event where
  /-- The Host issues a transaction (20_memory.md R60). -/
  | host (t : Transaction)
  /-- The Core's turn: its completion step, if one is enabled (40_sequencer.md R115; log 3, log 4). -/
  | core
  /-- The reset event (70_reset_and_hazards.md R290). -/
  | reset
deriving DecidableEq, Repr

/-- The registers of the register page, by the names of 10_state.md section 1. -/
inductive Reg where
  | id | cap | ctrl | rounds | cmd | status | ilen | olen
  | key0 | key1 | key2 | key3 | din0 | din1 | dout0 | dout1
deriving DecidableEq, Repr

/-- What an aligned offset addresses, by the address map (20_memory.md R62, R67). -/
inductive Target where
  | reg (r : Reg)
  /-- The IBUF window word j, `IBUF[4j ..< 4j+4]`, with 4j < MSG_BYTES. -/
  | ibufWord (j : Nat)
  /-- The OBUF window word j, `OBUF[4j ..< 4j+4]`, with 4j < MSG_BYTES. -/
  | obufWord (j : Nat)
  /-- A reserved offset, or a window word at or past MSG_BYTES. -/
  | reserved
deriving DecidableEq, Repr

end Sys2Proof.Machine
end

