-- ==== Sys2Proof/Machine/State.lean ====
section
/-! DEFINITION. The state of the core (10_state.md R20), the reasons a step can stop, and the state after reset
(70_reset_and_hazards.md R290). -/

namespace Sys2Proof.Machine

/-- The bytes of one message buffer that have been written since the last reset: (index, byte) pairs, the indices
strictly rising (`Memory.wf`). An index that is not listed holds the reset's free draw (log 2). -/
abbrev Memory := List Host.Cell

/-- CTRL: "bits 31:1 reserved, RAZ/WI" (10_state.md R23), so its one field is all it holds. -/
structure Ctrl where
  /-- IE, the interrupt enable (bit 0). -/
  ie : Bool
deriving DecidableEq, Repr

/-- STATUS: its four fields; every other bit "reads 0 and written values are discarded" (10_state.md R26 to R30). -/
structure Status where
  /-- BUSY, bit 0 (R26). -/
  busy : Bool
  /-- DONE, bit 1 (R27). -/
  done : Bool
  /-- WBUSY, bit 2 (R28). -/
  wbusy : Bool
  /-- ERRCODE, bits 11:8 (R29). -/
  errcode : BitVec 4
deriving DecidableEq, Repr

/-- "The architectural state of the core is exactly: the registers of the table above with their fields (rules R21 to
R35), the two byte buffers IBUF and OBUF (rules R36, R37) and the hidden command latch CMDREG (rule R39)" (10_state.md
R20). ID is a constant and CMD holds nothing; CAP is `params.msgBytes`. The last three fields are the model's own
(log 2, log 3, log 5). -/
structure State where
  /-- MSG_BYTES (read as CAP, R22) and BASE; no step changes them. -/
  params : Params
  /-- CTRL (R23). -/
  ctrl : Ctrl
  /-- ROUNDS.N, 8 bits (R24). -/
  rounds : BitVec 8
  /-- STATUS (R26 to R30). -/
  status : Status
  /-- ILEN (R31). -/
  ilen : Word
  /-- OLEN (R32). -/
  olen : Word
  /-- KEY0 to KEY3 (R33). -/
  key : Key
  /-- DIN0, DIN1 (R34). -/
  din : Block
  /-- DOUT0, DOUT1 (R35). -/
  dout : Block
  /-- CMDREG, the hidden command latch (R39). -/
  cmdreg : Word
  /-- IBUF (R36). -/
  ibuf : Memory
  /-- OBUF (R37). -/
  obuf : Memory
  /-- The model's own: the number of resets so far, which selects the free bytes (log 2). -/
  draw : Nat
  /-- The model's own: the events still to come, in the order they take effect (20_memory.md R73; log 3). -/
  schedule : List Event
  /-- The model's own: the port's answer to the most recent transaction since the last reset (log 5). -/
  answer : Option Answer
deriving DecidableEq, Repr

/-- Why a step stops with a fault. The spec has none: a command that fails completes (60_exceptions.md R260), and a bad
transaction is answered (R265). Both constructors are buffer accesses that "never occur" with a legal MSG_BYTES
(20_memory.md R79: "a model may refuse one as unreachable"); log 8. -/
inductive Fault where
  /-- Raised by `readIbuf` when `a + n > MSG_BYTES` (00_scope.md R10). Safe. -/
  | ibufRange
  /-- Raised by `writeObuf` when `a + n > MSG_BYTES` (00_scope.md R10). Safe. -/
  | obufRange
deriving DecidableEq, Repr

/-- Why a step is refused. -/
inductive Refusal where
  /-- Raised by `exec` for an instruction that has no meaning yet; no arm of this model does so. Safe. -/
  | notModelled (mnemonic : String)
deriving DecidableEq, Repr

/-- The machine with parameters p right after reset: every register at its reset value (70_reset_and_hazards.md R290,
the summary table), no byte of a buffer written. -/
def State.resetWith (p : Params) : State :=
  { params := p
    ctrl := { ie := false }
    rounds := 32#8
    status := { busy := false, done := false, wbusy := false, errcode := 0#4 }
    ilen := 0#32
    olen := 0#32
    key := { k0 := 0#32, k1 := 0#32, k2 := 0#32, k3 := 0#32 }
    din := { v0 := 0#32, v1 := 0#32 }
    dout := { v0 := 0#32, v1 := 0#32 }
    cmdreg := 0#32
    ibuf := []
    obuf := []
    draw := 0
    schedule := []
    answer := none }

/-- The machine right after reset, with the parameters the spec's examples use (log 1). -/
def State.reset : State := State.resetWith Params.ofExamples

end Sys2Proof.Machine
end

