-- ==== Sys2Proof/Machine/Flags.lean ====
section
/-! DEFINITION. Every computation on the STATUS flags (10_state.md R26 to R30), the error codes (60_exceptions.md R261)
and the interrupt output (R267). The datapath has no arithmetic flags (10_state.md R42). -/

namespace Sys2Proof.Machine

/-- The errors a command can raise (60_exceptions.md R261). -/
inductive ErrorKind where
  | invalidCiphertextLength
  | invalidPadding
  | invalidCommand
  | lengthOverflow
deriving DecidableEq, Repr

/-- The code of an error in STATUS.ERRCODE (60_exceptions.md R261); codes 5 to 15 are "never produced". -/
def ErrorKind.code (e : ErrorKind) : BitVec 4 :=
  match e with
  | .invalidCiphertextLength => 1#4
  | .invalidPadding => 2#4
  | .invalidCommand => 3#4
  | .lengthOverflow => 4#4

/-- STATUS as the host reads it: BUSY bit 0, DONE bit 1, WBUSY bit 2, ERRCODE bits 11:8, every other bit 0
(10_state.md R26 to R30). -/
def Status.word (f : Status) : Word :=
  0#20 ++ f.errcode ++ 0#5 ++ BitVec.ofBool f.wbusy ++ BitVec.ofBool f.done ++ BitVec.ofBool f.busy

/-- The flags at the start of a command: DONE and ERRCODE cleared, BUSY set, WBUSY as before (40_sequencer.md R111). -/
def Status.started (f : Status) : Status := { f with busy := true, done := false, errcode := 0#4 }

/-- The flags a completion step leaves: BUSY cleared, DONE set, the rest as before (40_sequencer.md R115). -/
def Status.completed (f : Status) : Status := { f with busy := false, done := true }

/-- The flags after `raise e` (40_sequencer.md R117). -/
def Status.raised (e : ErrorKind) (f : Status) : Status := { f with errcode := e.code }

/-- The flags after a write that was ignored because the core is busy (10_state.md R28; 40_sequencer.md R113). -/
def Status.lostWrite (f : Status) : Status := { f with wbusy := true }

/-- The flags after a host write to STATUS: bit 1 clears DONE, bit 2 clears WBUSY, every other bit is ignored
(10_state.md R27, R28, R30). -/
def Status.written (f : Status) (wdata : Word) : Status :=
  { f with done := f.done && !wdata.getLsbD 1, wbusy := f.wbusy && !wdata.getLsbD 2 }

/-- The interrupt output: `irq = STATUS.DONE AND CTRL.IE` (60_exceptions.md R267). -/
def State.irq (s : State) : Bool := s.status.done && s.ctrl.ie

end Sys2Proof.Machine
end

