-- ==== Sys2Proof/Machine/Ops.lean ====
section
/-! DEFINITION. The named operations every meaning is written over: the bytes of a buffer, MemRead and MemWrite
(00_scope.md R10), the end of a command with success or with an error (40_sequencer.md R115, R117), the start of a
command (R111), the busy lock (R113) and the reset event (70_reset_and_hazards.md R290). -/

namespace Sys2Proof.Machine

/-! Buffers as lists of (index, byte) pairs in one canonical form. -/

/-- The canonical form of a buffer: the indices strictly rising. An unlisted index reads as the reset's free draw, which
no listed byte can be known to equal, so there is no second condition (log 2). -/
abbrev Memory.wf (m : Memory) : Prop := m.Pairwise (fun x y => x.1 < y.1)

/-- Every listed index is below the capacity (10_state.md R36, R37: "indices 0 to MSG_BYTES-1"). -/
abbrev Memory.below (m : Memory) (capacity : Nat) : Prop := ∀ c ∈ m, c.1 < capacity

/-- The byte written at an index since the last reset, if any. -/
def Memory.lookup (m : Memory) (a : Nat) : Option Byte :=
  match m with
  | [] => none
  | c :: rest => if a = c.1 then some c.2 else Memory.lookup rest a

/-- Writes one byte, keeping the indices in order. -/
def Memory.store (m : Memory) (a : Nat) (v : Byte) : Memory :=
  match m with
  | [] => [(a, v)]
  | c :: rest =>
    if a < c.1 then (a, v) :: c :: rest
    else if a = c.1 then (a, v) :: rest
    else c :: Memory.store rest a v

/-- Writes a byte string at the indices from a on. -/
def Memory.storeBytes (m : Memory) (a : Nat) (v : Bytes) : Memory :=
  match v with
  | [] => m
  | b :: rest => Memory.storeBytes (m.store a b) (a + 1) rest

/-- `IBUF[i]`; a byte not written since the last reset is that reset's free draw (70_reset_and_hazards.md R292). -/
def State.ibufByte (s : State) (i : Nat) : Byte := (s.ibuf.lookup i).getD (Config.ibufDraw s.draw i)

/-- `OBUF[i]`, likewise. -/
def State.obufByte (s : State) (i : Nat) : Byte := (s.obuf.lookup i).getD (Config.obufDraw s.draw i)

/-- `IBUF[a ..< a+n]`. -/
def State.ibufBytes (s : State) (a n : Nat) : Bytes := (List.range n).map (fun i => s.ibufByte (a + i))

/-- `OBUF[a ..< a+n]`. -/
def State.obufBytes (s : State) (a n : Nat) : Bytes := (List.range n).map (fun i => s.obufByte (a + i))

/-! One operation after another. -/

/-- Goes on with the value of an operation that answered one; a fault or a refusal ends the whole. -/
def andThen {α β : Type} (o : Host.Outcome α Fault Refusal) (k : α → Host.Outcome β Fault Refusal) :
    Host.Outcome β Fault Refusal :=
  match o with
  | .next x => k x
  | .fault r => .fault r
  | .refused r => .refused r

/-- `MemRead(IBUF, a, n)` (00_scope.md R10), which requires `a + n <= MSG_BYTES`: every command checks that first, so
the fault is unreachable with legal parameters (20_memory.md R79; log 8). -/
def readIbuf (s : State) (a n : Nat) : Host.Outcome Bytes Fault Refusal :=
  if a + n ≤ s.params.msgBytes then .next (s.ibufBytes a n) else .fault .ibufRange

/-- `MemWrite(OBUF, a, len(v), v)` (00_scope.md R10), with the same requirement (20_memory.md R79; log 8). -/
def writeObuf (s : State) (a : Nat) (v : Bytes) : Host.Outcome State Fault Refusal :=
  if a + v.length ≤ s.params.msgBytes then .next { s with obuf := s.obuf.storeBytes a v } else .fault .obufRange

/-! The end of a command. -/

/-- `R.OLEN <- n`. -/
def State.setOlen (s : State) (n : Nat) : State := { s with olen := BitVec.ofNat 32 n }

/-- `R.DOUT0 <- v0; R.DOUT1 <- v1`. -/
def State.setDout (s : State) (b : Block) : State := { s with dout := b }

/-- The end of every completion step: BUSY <- 0, DONE <- 1 (40_sequencer.md R115). ERRCODE keeps what it is, 0 from the
start of the command (R111) unless the command raised. -/
def complete (s : State) : Host.Outcome State Fault Refusal := .next { s with status := s.status.completed }

/-- `raise e`, this machine's way of taking an exception: ERRCODE <- code(e), the rest of the command skipped, and the
completion step finishes (40_sequencer.md R117; 60_exceptions.md R260: "No state is saved for a handler, control goes
nowhere"). What the command wrote before stays written. The return from it is the host's acknowledgement
(60_exceptions.md R270): `Status.written` or `startCommand`. -/
def raiseError (e : ErrorKind) (s : State) : Host.Outcome State Fault Refusal :=
  complete { s with status := s.status.raised e }

/-- The failure of a message command: `R.OLEN <- 0`, then `raise e` (60_exceptions.md R263). -/
def failMessage (e : ErrorKind) (s : State) : Host.Outcome State Fault Refusal := raiseError e (s.setOlen 0)

/-- The success of a message command: its result into OBUF from index 0, its length into OLEN. -/
def finishMessage (s : State) (v : Bytes) : Host.Outcome State Fault Refusal :=
  andThen (writeObuf s 0 v) (fun t => complete (t.setOlen v.length))

/-! The start of a command and the busy lock. -/

/-- The start of a command with word w (40_sequencer.md R111): CMDREG <- w and the flags; nothing else changes. -/
def startCommand (w : Word) (s : State) : State := { s with cmdreg := w, status := s.status.started }

/-- A host write to a locked target: while BUSY = 1 it is ignored and sets WBUSY (40_sequencer.md R112, R113). -/
def locked (s : State) (write : State → State) : State :=
  if s.status.busy then { s with status := s.status.lostWrite } else write s

/-! Reset. -/

/-- The reset event (70_reset_and_hazards.md R290): every register takes its reset value, a running command is
abandoned, and the buffers hold a new free draw (R292). The parameters and the events still to come stay. -/
def resetEvent (s : State) : State :=
  { State.resetWith s.params with draw := s.draw + 1, schedule := s.schedule }

end Sys2Proof.Machine
end

