-- ==== Sys2Proof/Machine/Port.lean ====
section
/-! DEFINITION. The host port: the address map, reads and writes of every register and window, and the answer to a
transaction (10_state.md; 20_memory.md R60 to R72; 40_sequencer.md R111 to R114). -/

namespace Sys2Proof.Machine

/-- The offset of a register (10_state.md, the table of section 1). -/
def Reg.offset (r : Reg) : Nat :=
  match r with
  | .id => 0x000
  | .cap => 0x004
  | .ctrl => 0x008
  | .rounds => 0x00C
  | .cmd => 0x010
  | .status => 0x014
  | .ilen => 0x018
  | .olen => 0x01C
  | .key0 => 0x020
  | .key1 => 0x024
  | .key2 => 0x028
  | .key3 => 0x02C
  | .din0 => 0x030
  | .din1 => 0x034
  | .dout0 => 0x038
  | .dout1 => 0x03C

/-- The register at an offset of the register page (10_state.md, the same table read the other way). -/
def Reg.ofOffset (off : Nat) : Option Reg :=
  match off with
  | 0x000 => some .id
  | 0x004 => some .cap
  | 0x008 => some .ctrl
  | 0x00C => some .rounds
  | 0x010 => some .cmd
  | 0x014 => some .status
  | 0x018 => some .ilen
  | 0x01C => some .olen
  | 0x020 => some .key0
  | 0x024 => some .key1
  | 0x028 => some .key2
  | 0x02C => some .key3
  | 0x030 => some .din0
  | 0x034 => some .din1
  | 0x038 => some .dout0
  | 0x03C => some .dout1
  | _ => none

/-- What an aligned offset addresses (20_memory.md R62); a window word with `4j >= MSG_BYTES` is reserved (R67). -/
def target (p : Params) (off : Nat) : Target :=
  if off < 0x1000 then
    match Reg.ofOffset off with
    | some r => .reg r
    | none => .reserved
  else if off < 0x2000 then
    if off - 0x1000 < p.msgBytes then .ibufWord ((off - 0x1000) / 4) else .reserved
  else if off < 0x3000 then
    if off - 0x2000 < p.msgBytes then .obufWord ((off - 0x2000) / 4) else .reserved
  else .reserved

/-- The constant of the register ID, the ASCII bytes "TEA1" (10_state.md R21). -/
def idValue : Word := 0x54454131#32

/-- A value that a host reads as 0 while BUSY = 1 (40_sequencer.md R114). -/
def State.maskedWhileBusy (s : State) (w : Word) : Word := if s.status.busy then 0#32 else w

/-- What a host read of a register returns (10_state.md R21 to R35; 40_sequencer.md R114). -/
def State.readReg (s : State) (r : Reg) : Word :=
  match r with
  | .id => idValue
  | .cap => BitVec.ofNat 32 s.params.msgBytes
  | .ctrl => (BitVec.ofBool s.ctrl.ie).setWidth 32
  | .rounds => s.rounds.setWidth 32
  | .cmd => 0#32
  | .status => s.status.word
  | .ilen => s.ilen
  | .olen => s.maskedWhileBusy s.olen
  | .key0 => 0#32
  | .key1 => 0#32
  | .key2 => 0#32
  | .key3 => 0#32
  | .din0 => s.din.v0
  | .din1 => s.din.v1
  | .dout0 => s.maskedWhileBusy s.dout.v0
  | .dout1 => s.maskedWhileBusy s.dout.v1

/-- What a host read of an aligned offset returns (20_memory.md R62, R65 to R69). -/
def State.readWord (s : State) (off : Nat) : Word :=
  match target s.params off with
  | .reg r => s.readReg r
  | .ibufWord j => be32 (s.ibufBytes (4 * j) 4)
  | .obufWord j => s.maskedWhileBusy (be32 (s.obufBytes (4 * j) 4))
  | .reserved => 0#32

/-- What a host write of a register does (10_state.md R21 to R35; 40_sequencer.md R111 to R113). -/
def State.writeReg (s : State) (r : Reg) (wdata : Word) : State :=
  match r with
  | .id => s
  | .cap => s
  | .ctrl => { s with ctrl := { ie := wdata.getLsbD 0 } }
  | .rounds => locked s (fun t => { t with rounds := wdata.extractLsb' 0 8 })
  | .cmd => locked s (startCommand wdata)
  | .status => { s with status := s.status.written wdata }
  | .ilen => locked s (fun t => { t with ilen := wdata })
  | .olen => s
  | .key0 => locked s (fun t => { t with key := { t.key with k0 := wdata } })
  | .key1 => locked s (fun t => { t with key := { t.key with k1 := wdata } })
  | .key2 => locked s (fun t => { t with key := { t.key with k2 := wdata } })
  | .key3 => locked s (fun t => { t with key := { t.key with k3 := wdata } })
  | .din0 => locked s (fun t => { t with din := { t.din with v0 := wdata } })
  | .din1 => locked s (fun t => { t with din := { t.din with v1 := wdata } })
  | .dout0 => s
  | .dout1 => s

/-- What a host write of an aligned offset does (20_memory.md R62, R65 to R69). -/
def State.writeWord (s : State) (off : Nat) (wdata : Word) : State :=
  match target s.params off with
  | .reg r => s.writeReg r wdata
  | .ibufWord j => locked s (fun t => { t with ibuf := t.ibuf.storeBytes (4 * j) (unbe32 wdata) })
  | .obufWord _ => s
  | .reserved => s

/-- "Every transaction must have size = 4" and "offset[1:0] = 0"; the two checks are made together (20_memory.md R63,
R64). -/
def accepted (offset : BitVec 14) (size : Nat) : Bool := decide (size = 4) && decide (offset.toNat % 4 = 0)

/-- The answer to a transaction in a state (20_memory.md R60, R63 to R65): ERROR, a read then returning 0, or OKAY. -/
def State.answerTo (s : State) (t : Transaction) : Answer :=
  match t with
  | .read offset size =>
    if accepted offset size then { resp := .okay, rdata := some (s.readWord offset.toNat) }
    else { resp := .error, rdata := some 0#32 }
  | .write offset size _ =>
    if accepted offset size then { resp := .okay, rdata := none } else { resp := .error, rdata := none }

/-- The effect of a transaction on the core's state: a read has none (20_memory.md R72), a transaction answered ERROR has
none (R63, R64). -/
def State.effectOf (s : State) (t : Transaction) : State :=
  match t with
  | .read _ _ => s
  | .write offset size wdata => if accepted offset size then s.writeWord offset.toNat wdata else s

/-- One host transaction, whole (20_memory.md R72, R73): its effect, and the port's answer. -/
def transact (t : Transaction) (s : State) : State := { s.effectOf t with answer := some (s.answerTo t) }

/-- The interconnect's routing (20_memory.md R61): "only addresses in the region" reach the core, as the 14-bit offset
`addr - BASE`. -/
def route (p : Params) (addr : Nat) : Option (BitVec 14) :=
  if p.base ≤ addr ∧ addr < p.base + 0x4000 then some (BitVec.ofNat 14 (addr - p.base)) else none

end Sys2Proof.Machine
end

