-- ==== Sys2Proof/Syntax.lean ====
section
/-! DEFINITION. The commands: one constructor per row of spec/opcode_table.json (30_encoding.md R91). -/

namespace Sys2Proof

/-- The six commands of the core. "Commands have no operand fields; every operand is implicit in a register"
(30_encoding.md R94), so no constructor carries data. -/
inductive Instr where
  /-- ENC_BLOCK (43_block_cipher.md R185). -/
  | encBlock
  /-- DEC_BLOCK (43_block_cipher.md R186). -/
  | decBlock
  /-- ECB_ENC (45_ecb_driver.md R223). -/
  | ecbEnc
  /-- ECB_DEC (45_ecb_driver.md R224). -/
  | ecbDec
  /-- PAD (44_padding_codec.md R204). -/
  | pad
  /-- UNPAD (44_padding_codec.md R205). -/
  | unpad
deriving DecidableEq, Repr

end Sys2Proof
end

