-- ==== Sys2Proof/WellFormed.lean ====
section
/-! DEFINITION. What is well formed: a command word (30_encoding.md R92), a command, and the parameters of a machine
(00_scope.md R6). -/

namespace Sys2Proof

/-- "A command word w is valid exactly when w[31:4] = 0 and w[3:0] is one of 0x1 to 0x6" (30_encoding.md R92). -/
def validWord (w : Word) : Bool :=
  w.extractLsb' 4 28 == 0#28 && decide (1 ≤ (w.extractLsb' 0 4).toNat) && decide ((w.extractLsb' 0 4).toNat ≤ 6)

/-- Every command is well formed: it has no operand that could be out of range (30_encoding.md R94, R95). -/
def Instr.wf (i : Instr) : Bool :=
  match i with
  | .encBlock => true
  | .decBlock => true
  | .ecbEnc => true
  | .ecbDec => true
  | .pad => true
  | .unpad => true

/-- The limits of 00_scope.md R6: MSG_BYTES "must be a multiple of 8 with 8 <= MSG_BYTES <= 4096", BASE "a multiple of
0x4000". -/
def Params.wf (p : Params) : Bool :=
  decide (p.msgBytes % 8 = 0) && decide (8 ≤ p.msgBytes) && decide (p.msgBytes ≤ 4096) && decide (p.base % 0x4000 = 0)

end Sys2Proof
end

