-- ==== Sys2Proof/Decode.lean ====
section
/-! DEFINITION. Decoding of a command word, total and rejecting by name (30_encoding.md R90 to R93; the order of the
checks is that of 40_sequencer.md R116), and the encoder. -/

namespace Sys2Proof

/-- Why a word is illegal (30_encoding.md R93). Either way the command completes with INVALID_COMMAND
(40_sequencer.md R122). -/
inductive DecodeError where
  /-- RSV, bits 31:4, is not zero, "whatever its OP". -/
  | reservedBits
  /-- RSV is zero and OP is 0x0 or 0x7 to 0xF. -/
  | reservedOp
deriving DecidableEq, Repr

/-- The field OP, bits 3:0 (30_encoding.md R90). -/
def opField (w : Word) : BitVec 4 := w.extractLsb' 0 4

/-- The field RSV, bits 31:4 (30_encoding.md R90). -/
def rsvField (w : Word) : BitVec 28 := w.extractLsb' 4 28

/-- The dispatch of 40_sequencer.md R116, as a decoder: RSV first, then OP by the opcode map (30_encoding.md R91). -/
def decode (w : Word) : Except DecodeError Instr :=
  if rsvField w ≠ 0#28 then .error .reservedBits
  else match (opField w).toNat with
    | 1 => .ok .encBlock
    | 2 => .ok .decBlock
    | 3 => .ok .ecbEnc
    | 4 => .ok .ecbDec
    | 5 => .ok .pad
    | 6 => .ok .unpad
    | _ => .error .reservedOp

/-- The OP value of a command (30_encoding.md R91). -/
def opOf (i : Instr) : BitVec 4 :=
  match i with
  | .encBlock => 0x1#4
  | .decBlock => 0x2#4
  | .ecbEnc => 0x3#4
  | .ecbDec => 0x4#4
  | .pad => 0x5#4
  | .unpad => 0x6#4

/-- The word of a command: RSV = 0 above OP (30_encoding.md R90, R91). -/
def encode (i : Instr) : Word := (opOf i).setWidth 32

/-- The instruction the decoder reads from a table word: a command "is exactly one 32-bit word" (30_encoding.md R90),
so nothing longer than 32 bits, and nothing that does not fit its nbits, is one. Bits above nbits are 0 (log 7). -/
def decodeTableWord (nbits w : Nat) : Option Instr :=
  if nbits ≤ 32 ∧ w < 2 ^ nbits then
    match decode (BitVec.ofNat 32 w) with
    | .ok i => some i
    | .error _ => none
  else none

end Sys2Proof
end

