-- ==== Sys2Proof/Machine/Round.lean ====
section
/-! DEFINITION. The round function (42_round_function.md). Every operation is a primitive of 41_word_datapath.md. -/

namespace Sys2Proof.Machine

/-- RoundDelta (R160); each of the three terms is a 32-bit word before the XORs (R161). -/
def roundDelta (y s ka kb : Word) : Word :=
  xor32 (xor32 (add32 (shl4 y) ka) (add32 y s)) (add32 (shr5 y) kb)

/-- EncHalf (R162). -/
def encHalf (x y s ka kb : Word) : Word := add32 x (roundDelta y s ka kb)

/-- DecHalf (R163). -/
def decHalf (x y s ka kb : Word) : Word := sub32 x (roundDelta y s ka kb)

/-- What the rounds carry along: the block and the round accumulator s, which "lives only inside one block operation"
(10_state.md R40). -/
structure Mix where
  v : Block
  s : Word
deriving DecidableEq, Repr

/-- EncRound (R165): s advances first, and v1's update uses the already-updated v0. -/
def encRound (k : Key) (m : Mix) : Mix :=
  let s' := add32 m.s delta
  let v0' := encHalf m.v.v0 m.v.v1 s' k.k0 k.k1
  let v1' := encHalf m.v.v1 v0' s' k.k2 k.k3
  { v := { v0 := v0', v1 := v1' }, s := s' }

/-- DecRound (R166): v1 first, v0 from the updated v1, and s retreats after both halves (91_not_in_source.md N11). -/
def decRound (k : Key) (m : Mix) : Mix :=
  let v1' := decHalf m.v.v1 m.v.v0 m.s k.k2 k.k3
  let v0' := decHalf m.v.v0 v1' m.s k.k0 k.k1
  let s' := sub32 m.s delta
  { v := { v0 := v0', v1 := v1' }, s := s' }

end Sys2Proof.Machine
end

