-- ==== Sys2Proof/Machine/Cipher.lean ====
section
/-! DEFINITION. The block functions (43_block_cipher.md R180, R181). -/

namespace Sys2Proof.Machine

/-- n encryption rounds, one after the other (the loop of R180). -/
def encRounds (k : Key) (n : Nat) (m : Mix) : Mix :=
  match n with
  | 0 => m
  | n + 1 => encRound k (encRounds k n m)

/-- n decryption rounds, one after the other (the loop of R181). -/
def decRounds (k : Key) (n : Nat) (m : Mix) : Mix :=
  match n with
  | 0 => m
  | n + 1 => decRound k (decRounds k n m)

/-- EncryptBlock (R180): the accumulator starts at 0. -/
def encryptBlock (b : Block) (k : Key) (n : Nat) : Block :=
  (encRounds k n { v := b, s := 0#32 }).v

/-- DecryptBlock (R181): the accumulator starts at MULD(n). -/
def decryptBlock (b : Block) (k : Key) (n : Nat) : Block :=
  (decRounds k n { v := b, s := muld n }).v

end Sys2Proof.Machine
end

