-- ==== Sys2Proof/Machine/Operands.lean ====
section
/-! DEFINITION. The implicit operands of the commands: "every operand is implicit in a register" (30_encoding.md R94,
R95). The key, the block and the flags are the registers themselves. -/

namespace Sys2Proof.Machine

/-- The round count of every cipher command: ROUNDS.N "zero-extended to a natural number" (30_encoding.md R95; 10_state.md
R24). -/
def State.roundCount (s : State) : Nat := s.rounds.toNat

/-- The message length of every message command: "ILEN as a natural number" (30_encoding.md R95). -/
def State.messageLength (s : State) : Nat := s.ilen.toNat

/-- `IBUF[0 ..< ILEN]`, the message (10_state.md R36). -/
def State.message (s : State) : Bytes := s.ibufBytes 0 s.messageLength

end Sys2Proof.Machine
end

