-- ==== Sys2Proof/Machine/BlockCommands.lean ====
section
/-! DEFINITION. The block commands ENC_BLOCK and DEC_BLOCK (43_block_cipher.md R185, R186): each is the command's whole
completion step (40_sequencer.md R115). -/

namespace Sys2Proof.Machine

/-- ENC_BLOCK (R185): DOUT <- EncryptBlock(DIN, KEY, ROUNDS.N). It cannot fail. -/
def execEncBlock (s : State) : Host.Outcome State Fault Refusal :=
  complete (s.setDout (encryptBlock s.din s.key s.roundCount))

/-- DEC_BLOCK (R186): DOUT <- DecryptBlock(DIN, KEY, ROUNDS.N). It cannot fail. -/
def execDecBlock (s : State) : Host.Outcome State Fault Refusal :=
  complete (s.setDout (decryptBlock s.din s.key s.roundCount))

end Sys2Proof.Machine
end

