-- ==== Sys2Proof/Machine/Padding.lean ====
section
/-! DEFINITION. The padding functions (44_padding_codec.md R200, R202). -/

namespace Sys2Proof.Machine

/-- How many bytes Pad appends to a string of length len: `n = 8 - (len mod 8)`, in 1..8 (R200). -/
def padCount (len : Nat) : Nat := 8 - len % 8

/-- Pad (R200): "Append n bytes each equal to n". -/
def padBytes (d : Bytes) : Bytes :=
  d ++ List.replicate (padCount d.length) (BitVec.ofNat 8 (padCount d.length))

/-- Unpad (R202): none is FAIL. Every condition is checked: a non-empty string, a pad byte in 1..8, at least that many
bytes, and every one of the last p bytes equal to p (90_conflicts.md C2). -/
def unpadBytes (d : Bytes) : Option Bytes :=
  let len := d.length
  if len = 0 then none
  else
    let p := d.getD (len - 1) 0#8
    if p.toNat = 0 ∨ p.toNat > 8 then none
    else if p.toNat > len then none
    else if (d.drop (len - p.toNat)).all (fun x => x == p) then some (d.take (len - p.toNat))
    else none

end Sys2Proof.Machine
end

