-- ==== Sys2Proof/Machine/Ecb.lean ====
section
/-! DEFINITION. The ECB functions (45_ecb_driver.md R220, R221): block j of a string is its bytes 8j ..< 8j+8
(20_memory.md R70). -/

namespace Sys2Proof.Machine

/-- Block j of a byte string, its two words big-endian (20_memory.md R70). -/
def blockAt (d : Bytes) (j : Nat) : Block :=
  { v0 := be32 (slice d (8 * j) (8 * j + 4)), v1 := be32 (slice d (8 * j + 4) (8 * j + 8)) }

/-- The 8 bytes of a block, `UNBE32(v0) ‖ UNBE32(v1)` (20_memory.md R70). -/
def blockBytes (b : Block) : Bytes := unbe32 b.v0 ++ unbe32 b.v1

/-- The block loop of R220 and R221: f on every whole block in ascending order, the results concatenated. -/
def mapBlocks (f : Block → Block) (d : Bytes) : Bytes :=
  (List.range (d.length / 8)).flatMap (fun j => blockBytes (f (blockAt d j)))

/-- EcbEncrypt (R220). -/
def ecbEncrypt (d : Bytes) (k : Key) (n : Nat) : Bytes :=
  mapBlocks (fun b => encryptBlock b k n) (padBytes d)

/-- EcbDecryptBlocks (R221), for a string whose length is a multiple of 8. -/
def ecbDecryptBlocks (c : Bytes) (k : Key) (n : Nat) : Bytes :=
  mapBlocks (fun b => decryptBlock b k n) c

end Sys2Proof.Machine
end

