-- ==== Sys2Proof/Machine/MessageCommands.lean ====
section
/-! DEFINITION. The message commands ECB_ENC and ECB_DEC (45_ecb_driver.md R223, R224). -/

namespace Sys2Proof.Machine

/-- ECB_ENC (R223). -/
def execEcbEnc (s : State) : Host.Outcome State Fault Refusal :=
  if s.messageLength ≥ s.params.msgBytes then failMessage .lengthOverflow s
  else andThen (readIbuf s 0 s.messageLength) (fun d => finishMessage s (ecbEncrypt d s.key s.roundCount))

/-- ECB_DEC (R224): the checks in the order of 60_exceptions.md R264; the decrypted blocks stay in OBUF when the padding
is bad. -/
def execEcbDec (s : State) : Host.Outcome State Fault Refusal :=
  if s.messageLength > s.params.msgBytes then failMessage .lengthOverflow s
  else if s.messageLength % 8 ≠ 0 then failMessage .invalidCiphertextLength s
  else if s.messageLength = 0 then failMessage .invalidCiphertextLength s
  else andThen (readIbuf s 0 s.messageLength) (fun c =>
    let q := ecbDecryptBlocks c s.key s.roundCount
    andThen (writeObuf s 0 q) (fun t =>
      match unpadBytes q with
      | none => failMessage .invalidPadding t
      | some u => complete (t.setOlen u.length)))

end Sys2Proof.Machine
end

