-- ==== Sys2Proof/Machine/PaddingCommands.lean ====
section
/-! DEFINITION. The padding commands PAD and UNPAD (44_padding_codec.md R204, R205). -/

namespace Sys2Proof.Machine

/-- PAD (R204). -/
def execPad (s : State) : Host.Outcome State Fault Refusal :=
  if s.messageLength ≥ s.params.msgBytes then failMessage .lengthOverflow s
  else andThen (readIbuf s 0 s.messageLength) (fun d => finishMessage s (padBytes d))

/-- UNPAD (R205). -/
def execUnpad (s : State) : Host.Outcome State Fault Refusal :=
  if s.messageLength > s.params.msgBytes then failMessage .lengthOverflow s
  else andThen (readIbuf s 0 s.messageLength) (fun d =>
    match unpadBytes d with
    | none => failMessage .invalidPadding s
    | some u => finishMessage s u)

end Sys2Proof.Machine
end

