-- ==== Sys2Proof/Machine/Sequencer.lean ====
section
/-! DEFINITION. The command sequencer: what the Core does in its turn (40_sequencer.md R110, R115, R116, R122). -/

namespace Sys2Proof.Machine

/-- InvalidCommand (40_sequencer.md R122): nothing but `raise INVALID_COMMAND`. -/
def invalidCommand (s : State) : Host.Outcome State Fault Refusal := raiseError .invalidCommand s

/-- The completion step (40_sequencer.md R115): Execute(CMDREG), with the check of the word made here and not at the
CMD write (30_encoding.md R92). -/
def completionStep (s : State) : Host.Outcome State Fault Refusal :=
  match decode s.cmdreg with
  | .ok i => exec i s
  | .error _ => invalidCommand s

/-- The Core's turn: its one step is "enabled exactly when STATUS.BUSY = 1" (40_sequencer.md R115); "when idle it simply
waits for a CMD write" (60_exceptions.md R276), which changes nothing (log 4). -/
def coreTurn (s : State) : Host.Outcome State Fault Refusal :=
  if s.status.busy then completionStep s else .next s

end Sys2Proof.Machine
end

