-- ==== Sys2Proof/Machine/Step.lean ====
section
/-! DEFINITION. One step of the execution: the next event of the one total order of host transactions, completion steps
and reset events (20_memory.md R73). -/

namespace Sys2Proof.Machine

/-- The state with its schedule replaced. -/
def State.setSchedule (s : State) (es : List Event) : State := { s with schedule := es }

/-- One step: the first event of the schedule takes effect, whole, before the next one (20_memory.md R73). With no event
left it is the Core's turn at every step: "the completion step is eventually taken" (40_sequencer.md R119; log 3). -/
def step (s : State) : Host.Outcome State Fault Refusal :=
  match s.schedule with
  | [] => coreTurn s
  | .host t :: rest => .next (transact t (s.setSchedule rest))
  | .core :: rest => coreTurn (s.setSchedule rest)
  | .reset :: rest => .next (resetEvent (s.setSchedule rest))

/-- The state in which the command word w is the one to run next: started by 40_sequencer.md R111 (which the CMD write
does, and which here stands for it, log 6), with the Core's turn first in the schedule. The bits above nbits are 0. -/
def State.withFetchWord (s : State) (nbits w : Nat) : State :=
  startCommand (BitVec.ofNat 32 (w % 2 ^ nbits)) (s.setSchedule (.core :: s.schedule))

end Sys2Proof.Machine
end

