-- ==== Sys2Proof/Machine/Script.lean ====
section
/-! DEFINITION. Host scripts (30_encoding.md R96, R97): their statements, their encoding as transactions, the expansions of
the pseudo-statements, and a script performed on the core, with the loop of WAIT. Nothing here is hardware. -/

namespace Sys2Proof.Machine

/-- What a statement names: a register, a window word, or a literal offset `@0x...` (30_encoding.md R96). -/
inductive Place where
  | reg (r : Reg)
  | ibuf (j : Nat)
  | obuf (j : Nat)
  | at (offset : BitVec 14)
deriving DecidableEq, Repr

/-- The offset of a place (30_encoding.md R96); a window index past the 4 KiB window has none (DESIGN CHOICE,
log 11). -/
def Place.offset (p : Place) : Option (BitVec 14) :=
  match p with
  | .reg r => some (BitVec.ofNat 14 r.offset)
  | .ibuf j => if j < 1024 then some (BitVec.ofNat 14 (0x1000 + 4 * j)) else none
  | .obuf j => if j < 1024 then some (BitVec.ofNat 14 (0x2000 + 4 * j)) else none
  | .at offset => some offset

/-- A statement of a host script (30_encoding.md R96). -/
inductive Stmt where
  /-- `WR <place>, <value>`. -/
  | wr (p : Place) (value : Word)
  /-- `RD <place>`. -/
  | rd (p : Place)
deriving DecidableEq, Repr

/-- "The encoding of a statement is its transaction (kind, offset, size, wdata)", the size always 4 (30_encoding.md
R96). DESIGN CHOICE (log 11): R96 lists `OBUF[j]` for RD only; `WR OBUF[j]` is here the WRITE at the same offset,
0x2000 + 4j, which the core ignores (20_memory.md R69). -/
def Stmt.encode (x : Stmt) : Option Transaction :=
  match x with
  | .wr p value => p.offset.map (fun offset => .write offset 4 value)
  | .rd p => p.offset.map (fun offset => .read offset 4)

/-- The expansion of a `WAIT` that goes round `rounds` times before its last read: that many reads of STATUS which return
BUSY = 1, then the one which returns BUSY = 0 (30_encoding.md R97: "repeat `RD STATUS` until bit 0 (BUSY) of the value read
is 0"). How many there are, the values read decide: `performWait` is the loop. -/
def waitStmts (rounds : Nat) : List Stmt := List.replicate (rounds + 1) (.rd (.reg .status))

/-- The expansion of `RUN <mnemonic>`, its `WAIT` going round `rounds` times (30_encoding.md R97): `performRun`. -/
def runStmts (i : Instr) (rounds : Nat) : List Stmt := .wr (.reg .cmd) (encode i) :: waitStmts rounds

/-- `SETKEY k0, k1, k2, k3` (30_encoding.md R97). -/
def setKeyStmts (k : Key) : List Stmt :=
  [.wr (.reg .key0) k.k0, .wr (.reg .key1) k.k1, .wr (.reg .key2) k.k2, .wr (.reg .key3) k.k3]

/-- `LOAD <hex bytes>` (30_encoding.md R97): ILEN, then the IBUF words, "the missing bytes of a last partial word taken
as 0x00". -/
def loadStmts (d : Bytes) : List Stmt :=
  .wr (.reg .ilen) (BitVec.ofNat 32 d.length) ::
    (List.range ((d.length + 3) / 4)).map (fun j => .wr (.ibuf j) (be32 (slice d (4 * j) (4 * j + 4))))

/-- `CLEAR` (30_encoding.md R97): clears DONE and WBUSY. -/
def clearStmts : List Stmt := [.wr (.reg .status) 0x00000006#32]

/-- The events of a script, if every statement has a transaction. The Core's turns are not the script's: they may fall
anywhere between its transactions (20_memory.md R74). -/
def scriptEvents (script : List Stmt) : Option (List Event) :=
  match script with
  | [] => some []
  | x :: rest =>
    match x.encode, scriptEvents rest with
    | some t, some es => some (.host t :: es)
    | _, _ => none

/-! A script performed on the core. -/

/-- A script performed on the core, one whole transaction after the other; none if a statement has no transaction. -/
def perform (script : List Stmt) (s : State) : Option State :=
  match script with
  | [] => some s
  | x :: rest =>
    match x.encode with
    | some t => perform rest (transact t s)
    | none => none

/-- Bit 0 (BUSY) of the value that the last transaction read (30_encoding.md R97). -/
def State.readBusy (s : State) : Option Bool :=
  match s.answer with
  | some { resp := _, rdata := some w } => some (w.getLsbD 0)
  | _ => none

/-- One round of the loop of `WAIT`: the Core's turn if it falls here, between two transactions (20_memory.md R74), then
`RD STATUS`. None where the Core's turn answers no state. -/
def poll (turn : Bool) (s : State) : Option State :=
  match if turn then coreTurn s else .next s with
  | .next t => perform [.rd (.reg .status)] t
  | .fault _ => none
  | .refused _ => none

/-- `WAIT`: "repeat `RD STATUS` until bit 0 (BUSY) of the value read is 0" (30_encoding.md R97). `turns` says before which
reads the Core's turn falls, since the spec does not fix the number of reads (40_sequencer.md R119); when it is used up
the Core's turn comes, the model's reading of weak fairness (log 3), so the loop ends. None where no value is read, or
where BUSY reads 1 even after that turn. -/
def performWait (turns : List Bool) (s : State) : Option State :=
  match turns with
  | [] =>
    match poll true s with
    | none => none
    | some t => if t.readBusy = some false then some t else none
  | turn :: rest =>
    match poll turn s with
    | none => none
    | some t => if t.readBusy = some false then some t else performWait rest t

/-- A script that ends with a CMD write, and the `WAIT` that makes it a `RUN` (30_encoding.md R97). -/
def performAndWait (turns : List Bool) (script : List Stmt) (s : State) : Option State :=
  match perform script s with
  | none => none
  | some t => performWait turns t

/-- `RUN <mnemonic>`: "`WR CMD, <word of the mnemonic by rule R91>` followed by `WAIT`" (30_encoding.md R97). -/
def performRun (turns : List Bool) (i : Instr) (s : State) : Option State :=
  performAndWait turns [.wr (.reg .cmd) (encode i)] s

end Sys2Proof.Machine
end

