-- ==== Sys2Proof/Machine/HostHelpers.lean ====
section
/-! DEFINITION. The host-side functions of 46_host_helpers.md: "Nothing in this file is hardware", and no step of the
core calls it. -/

namespace Sys2Proof.Machine

/-- The error kinds of the host's software (60_exceptions.md R262; 46_host_helpers.md R240). -/
inductive HostError where
  /-- The hex parse of a key failed (R241). -/
  | invalidKeyFormat
  /-- "key ≠ 16 bytes" (R247). -/
  | invalidKeyLength
  /-- "block ≠ 8 bytes passed to the block cipher" (R247). -/
  | invalidBlockLength
  /-- ERRCODE = 1 seen by the host (R244). -/
  | invalidCiphertextLength
  /-- ERRCODE = 2 seen by the host (R244). -/
  | invalidPadding
  /-- "caller-level: empty plaintext field" (R245): a front end's error, raised by no function here. -/
  | emptyInput
  /-- The decoding of plaintext as text failed (R246): the caller's error, raised by no function here. -/
  | plaintextDecodeError
deriving DecidableEq, Repr

/-- The whitespace parseKey strips: space, tab, CR, LF, VT, FF (92_eei_decisions.md D30). -/
def isStripped (c : Char) : Bool := [32, 9, 13, 10, 11, 12].contains c.toNat

/-- `strip`: "leading and trailing whitespace" (46_host_helpers.md R241). -/
def strip (h : List Char) : List Char := ((h.dropWhile isStripped).reverse.dropWhile isStripped).reverse

/-- `lowercase`: "'A'..'F' become 'a'..'f'" (46_host_helpers.md R241). -/
def lowerHex (c : Char) : Char := if 65 ≤ c.toNat ∧ c.toNat ≤ 70 then Char.ofNat (c.toNat + 32) else c

/-- The value of a hex digit of the alphabet 0-9a-f (46_host_helpers.md R241). -/
def hexVal (c : Char) : Option Nat :=
  if 48 ≤ c.toNat ∧ c.toNat ≤ 57 then some (c.toNat - 48)
  else if 97 ≤ c.toNat ∧ c.toNat ≤ 102 then some (c.toNat - 87)
  else none

/-- `K[i] = 16 * hexval(t[2i]) + hexval(t[2i+1])` for every pair; none if a character is no hex digit, or if one is left
over (46_host_helpers.md R241). -/
def hexPairs (t : List Char) : Option Bytes :=
  match t with
  | [] => some []
  | [_] => none
  | hi :: lo :: rest =>
    match hexVal hi, hexVal lo, hexPairs rest with
    | some a, some b, some bs => some (BitVec.ofNat 8 (16 * a + b) :: bs)
    | _, _, _ => none

/-- parseKey (46_host_helpers.md R241). -/
def parseKey (h : List Char) : Except HostError Bytes :=
  let t := (strip h).map lowerHex
  if t.length ≠ 32 then .error .invalidKeyFormat
  else match hexPairs t with
    | some k => .ok k
    | none => .error .invalidKeyFormat

/-- isValidHex (46_host_helpers.md R242), with the host parameter REQUIRE_NONEMPTY as an argument. -/
def isValidHex (requireNonempty : Bool) (h : List Char) : Bool :=
  (!h.isEmpty || !requireNonempty) && h.all (fun c => (hexVal (lowerHex c)).isSome)

/-- The key registers' words of a 16-byte key, `KEYi = BE32(K[4i ..< 4i+4])` (10_state.md R33; 20_memory.md R70). -/
def keyOfBytes (k : Bytes) : Key :=
  { k0 := be32 (slice k 0 4), k1 := be32 (slice k 4 8), k2 := be32 (slice k 8 12), k3 := be32 (slice k 12 16) }

/-- The writes every call of the contract begins with: the key, and ROUNDS = 32 (46_host_helpers.md R243, R244, R249). -/
def keyCall (keyBytes : Bytes) : Except HostError (List Stmt) :=
  if keyBytes.length ≠ 16 then .error .invalidKeyLength
  else .ok (setKeyStmts (keyOfBytes keyBytes) ++ [.wr (.reg .rounds) 32#32])

/-- The message and its command (46_host_helpers.md R243, R244). -/
def messageStmts (i : Instr) (message : Bytes) : List Stmt := loadStmts message ++ [.wr (.reg .cmd) (encode i)]

/-- The writes of a message call, up to its CMD write: the key, ROUNDS = 32, the message, the command
(46_host_helpers.md R243, R244). -/
def messageCall (i : Instr) (message keyBytes : Bytes) : Except HostError (List Stmt) :=
  match keyCall keyBytes with
  | .error e => .error e
  | .ok setup => .ok (setup ++ messageStmts i message)

/-- Host `encrypt`, the part up to the CMD write (46_host_helpers.md R243). -/
def hostEncryptCall (plaintext keyBytes : Bytes) : Except HostError (List Stmt) :=
  messageCall .ecbEnc plaintext keyBytes

/-- Host `decrypt`, the part up to the CMD write (46_host_helpers.md R244). -/
def hostDecryptCall (ciphertext keyBytes : Bytes) : Except HostError (List Stmt) :=
  messageCall .ecbDec ciphertext keyBytes

/-- What the host collects after the command: OLEN, then OBUF[0 ..< OLEN] through the window (46_host_helpers.md R243;
20_memory.md R66, R69). Reads change nothing (20_memory.md R72), so they are one function of the state. -/
def hostCollect (s : State) : Bytes :=
  let n := (s.readWord Reg.olen.offset).toNat
  slice ((List.range ((n + 3) / 4)).flatMap (fun j => unbe32 (s.readWord (0x2000 + 4 * j)))) 0 n

/-- The outcome of host `decrypt` after the command: ERRCODE 1 and 2, read from STATUS bits 11:8, are its two errors
(46_host_helpers.md R244). DESIGN CHOICE (log 17): the rule states no outcome for ERRCODE = 4, a ciphertext longer than
MSG_BYTES; here the host collects the OLEN = 0 bytes there are. -/
def hostDecryptResult (s : State) : Except HostError Bytes :=
  let errcode := (s.readWord Reg.status.offset).extractLsb' 8 4
  if errcode = 1#4 then .error .invalidCiphertextLength
  else if errcode = 2#4 then .error .invalidPadding
  else .ok (hostCollect s)

/-- Host `encrypt` on the core: the call, its wait, and the ciphertext collected (46_host_helpers.md R243). `turns` is where
the Core's turns fall in the wait (`performWait`). DESIGN CHOICE (log 17): the rule states no result for a plaintext of
MSG_BYTES bytes or more; here the host collects the OLEN = 0 bytes there are. -/
def hostEncrypt (turns : List Bool) (plaintext keyBytes : Bytes) (s : State) : Except HostError (Option Bytes) :=
  match hostEncryptCall plaintext keyBytes with
  | .error e => .error e
  | .ok call => .ok ((performAndWait turns call s).map hostCollect)

/-- Host `decrypt` on the core: the call, its wait, and the plaintext or the error the host reports (46_host_helpers.md
R244). -/
def hostDecrypt (turns : List Bool) (ciphertext keyBytes : Bytes) (s : State) : Except HostError (Option Bytes) :=
  match hostDecryptCall ciphertext keyBytes with
  | .error e => .error e
  | .ok call =>
    match performAndWait turns call s with
    | none => .ok none
    | some t =>
      match hostDecryptResult t with
      | .error e => .error e
      | .ok d => .ok (some d)

/-- One block by ENC_BLOCK or DEC_BLOCK: DIN0, DIN1 and the CMD write (10_state.md R34; 46_host_helpers.md R247,
R249). -/
def blockCall (i : Instr) (block : Bytes) : Except HostError (List Stmt) :=
  if block.length ≠ 8 then .error .invalidBlockLength
  else .ok [.wr (.reg .din0) (be32 (slice block 0 4)), .wr (.reg .din1) (be32 (slice block 4 8)),
    .wr (.reg .cmd) (encode i)]

/-! Messages longer than the buffer (46_host_helpers.md R249). -/

/-- The block calls of a byte string, one for each index of `order`, in that order: "running ENC_BLOCK once per 8-byte
block of P, in any order" (46_host_helpers.md R249). -/
def blockCalls (i : Instr) (p : Bytes) (order : List Nat) : Except HostError (List (Nat × List Stmt)) :=
  match order with
  | [] => .ok []
  | j :: rest =>
    match blockCall i (slice p (8 * j) (8 * j + 8)), blockCalls i p rest with
    | .ok call, .ok calls => .ok ((j, call) :: calls)
    | .error e, _ => .error e
    | .ok _, .error e => .error e

/-- A long message as calls: the key and ROUNDS = 32, then one call per block with the block's index, then, where the
message was split, the message call of its last part (46_host_helpers.md R249). -/
structure LongCall where
  setup : List Stmt
  blocks : List (Nat × List Stmt)
  last : Option (List Stmt)
deriving DecidableEq, Repr

/-- The calls of a long message, unless the key or a block has a wrong length. DESIGN CHOICE (log 17): the key's length
is checked first, and a block index past the message is a block of a wrong length. -/
def longCall (i : Instr) (p keyBytes : Bytes) (order : List Nat) (last : Option (List Stmt)) :
    Except HostError LongCall :=
  match keyCall keyBytes, blockCalls i p order with
  | .ok setup, .ok blocks => .ok { setup := setup, blocks := blocks, last := last }
  | .error e, _ => .error e
  | .ok _, .error e => .error e

/-- "computing P = Pad(d) itself and running ENC_BLOCK once per 8-byte block of P" (46_host_helpers.md R249). `order`
lists the block indices of P, each once. -/
def longEncryptCalls (order : List Nat) (d keyBytes : Bytes) : Except HostError LongCall :=
  longCall .encBlock (padBytes d) keyBytes order none

/-- The message split after m whole blocks, "encrypting all but the last part with ENC_BLOCK and the last part with
ECB_ENC" (46_host_helpers.md R249). `order` lists the indices below m, each once; the last part must be shorter than
MSG_BYTES. -/
def splitEncryptCalls (m : Nat) (order : List Nat) (d keyBytes : Bytes) : Except HostError LongCall :=
  longCall .encBlock (d.take (8 * m)) keyBytes order (some (messageStmts .ecbEnc (d.drop (8 * m))))

/-- "Decryption is the mirror with DEC_BLOCK and a host-side Unpad" (46_host_helpers.md R249). DESIGN CHOICE (log 17): the
rule does not say what the host does with a ciphertext that is empty or no whole number of blocks; here it fails with
InvalidCiphertextLength before any write, the error `decrypt` reports (R244; 45_ecb_driver.md R224). DESIGN CHOICE
(log 17): the rule gives no order of the two checks; the key's comes first, as in `decrypt` (R244). -/
def longDecryptCalls (order : List Nat) (c keyBytes : Bytes) : Except HostError LongCall :=
  match keyCall keyBytes with
  | .error e => .error e
  | .ok _ =>
    if c.length % 8 ≠ 0 ∨ c.length = 0 then .error .invalidCiphertextLength
    else longCall .decBlock c keyBytes order none

/-- What the host reads after a block command: DOUT0 and DOUT1 through the port (10_state.md R35). -/
def blockCollect (s : State) : Block := { v0 := s.readWord Reg.dout0.offset, v1 := s.readWord Reg.dout1.offset }

/-- The block calls made one after the other, each waited for and DOUT read after it: the pairs read, with their indices.
`turns j` is where the Core's turns fall in the wait for block j (`performWait`). -/
def performBlocks (turns : Nat → List Bool) (calls : List (Nat × List Stmt)) (s : State) : Option (State × List (Nat × Block)) :=
  match calls with
  | [] => some (s, [])
  | (j, call) :: rest =>
    match performAndWait (turns j) call s with
    | none => none
    | some t =>
      match performBlocks turns rest t with
      | none => none
      | some (u, pairs) => some (u, (j, blockCollect t) :: pairs)

/-- The bytes of n blocks, put in place by their indices: "the concatenated DOUT words" (46_host_helpers.md R249). -/
def assemble (n : Nat) (pairs : List (Nat × Block)) : Bytes :=
  (List.range n).flatMap (fun j =>
    match pairs.lookup j with
    | some b => blockBytes b
    | none => [])

/-- A long message's calls made on the core: the bytes of its blocks, then those of the last part's message command.
The wait for the last part takes the turns after those of the blocks. -/
def performLong (turns : Nat → List Bool) (x : LongCall) (s : State) : Option Bytes :=
  match perform x.setup s with
  | none => none
  | some t =>
    match performBlocks turns x.blocks t with
    | none => none
    | some (u, pairs) =>
      match x.last with
      | none => some (assemble x.blocks.length pairs)
      | some call => (performAndWait (turns x.blocks.length) call u).map
        (fun v => assemble x.blocks.length pairs ++ hostCollect v)

/-- The outcome of a long decryption: the host-side Unpad of the decrypted blocks (46_host_helpers.md R249;
44_padding_codec.md R202). -/
def longDecryptResult (q : Bytes) : Except HostError Bytes :=
  match unpadBytes q with
  | some d => .ok d
  | none => .error .invalidPadding

end Sys2Proof.Machine
end

