-- ==== Sys2Proof/Safety.lean ====
section
/-! DEFINITION. What a good state is, and what a run over the schedule is, in the terms the statements use. -/

namespace Sys2Proof.Machine

/-- The invariant of the machine: what the spec promises of every state a legal core can be in. -/
structure State.Inv (s : State) : Prop where
  /-- MSG_BYTES and BASE are legal (00_scope.md R6). -/
  params : s.params.wf = true
  /-- IBUF is in canonical form. -/
  ibuf_wf : Memory.wf s.ibuf
  /-- IBUF has the indices 0 to MSG_BYTES-1 only (10_state.md R36). -/
  ibuf_below : Memory.below s.ibuf s.params.msgBytes
  /-- OBUF is in canonical form. -/
  obuf_wf : Memory.wf s.obuf
  /-- OBUF has the indices 0 to MSG_BYTES-1 only (10_state.md R37). -/
  obuf_below : Memory.below s.obuf s.params.msgBytes
  /-- A running command has DONE = 0 and ERRCODE = 0 (10_state.md R27, R29; 40_sequencer.md R111). -/
  running : s.status.busy = true → s.status.done = false ∧ s.status.errcode = 0#4
  /-- Error codes 5 to 15 are never produced (60_exceptions.md R261). -/
  errcode_le : s.status.errcode.toNat ≤ 4
  /-- The result fits OBUF (10_state.md R32, R37). -/
  olen_le : s.olen.toNat ≤ s.params.msgBytes

/-- A write to CMD that the port accepts: the only transaction that can start a command (40_sequencer.md R111). -/
def Transaction.writesCmd (t : Transaction) : Bool :=
  match t with
  | .read _ _ => false
  | .write offset size _ => accepted offset size && offset.toNat == Reg.cmd.offset

/-- The outcome of k steps, one after the other; the first fault or refusal ends the run. -/
def stepsTo (k : Nat) (s : State) : Host.Outcome State Fault Refusal :=
  match k with
  | 0 => .next s
  | k + 1 => andThen (step s) (stepsTo k)

/-- The inputs of the commands: every register and buffer a completion step reads or the host writes for it
(30_encoding.md R94), with the word it decodes. -/
def State.SameInputs (s t : State) : Prop :=
  t.params = s.params ∧ t.key = s.key ∧ t.din = s.din ∧ t.rounds = s.rounds ∧ t.ilen = s.ilen ∧
    t.ibuf = s.ibuf ∧ t.draw = s.draw ∧ t.cmdreg = s.cmdreg

/-- The results of the commands: DOUT, OLEN, OBUF and ERRCODE (30_encoding.md R94). -/
def State.SameResults (s t : State) : Prop :=
  t.dout = s.dout ∧ t.olen = s.olen ∧ t.obuf = s.obuf ∧ t.draw = s.draw ∧ t.status.errcode = s.status.errcode

/-- The frame every completion step shares: "No command writes KEY0..3, DIN0, DIN1, ROUNDS, ILEN, IBUF or CTRL"
(30_encoding.md R94), and "The step does not change CTRL, STATUS.WBUSY or CMDREG" (40_sequencer.md R115). IBUF is read byte
by byte as well as compared as data. -/
def State.KeepsInputs (s t : State) : Prop :=
  t.params = s.params ∧ t.ctrl = s.ctrl ∧ t.rounds = s.rounds ∧ t.ilen = s.ilen ∧ t.key = s.key ∧ t.din = s.din ∧
    t.cmdreg = s.cmdreg ∧ t.ibuf = s.ibuf ∧ (∀ a, t.ibufByte a = s.ibufByte a) ∧ t.draw = s.draw ∧
    t.schedule = s.schedule ∧ t.answer = s.answer ∧ t.status.wbusy = s.status.wbusy

/-- STATUS after a completion step that leaves the code: BUSY = 0, DONE = 1, WBUSY as it was (40_sequencer.md R115). -/
def State.CompletedWith (s t : State) (code : BitVec 4) : Prop :=
  t.status = { busy := false, done := true, wbusy := s.status.wbusy, errcode := code }

/-- The commands whose result is a block in DOUT; the others write OBUF and OLEN (30_encoding.md R94). -/
def isBlockCommand (i : Instr) : Bool :=
  match i with
  | .encBlock => true
  | .decBlock => true
  | .ecbEnc => false
  | .ecbDec => false
  | .pad => false
  | .unpad => false

/-- Two states that agree on what a command reads, the column "reads" of 30_encoding.md R94 (with the capacity). -/
def SameReads (i : Instr) (s t : State) : Prop :=
  match i with
  | .encBlock => t.din = s.din ∧ t.key = s.key ∧ t.rounds = s.rounds
  | .decBlock => t.din = s.din ∧ t.key = s.key ∧ t.rounds = s.rounds
  | .ecbEnc => t.ilen = s.ilen ∧ t.params = s.params ∧ t.message = s.message ∧ t.key = s.key ∧ t.rounds = s.rounds
  | .ecbDec => t.ilen = s.ilen ∧ t.params = s.params ∧ t.message = s.message ∧ t.key = s.key ∧ t.rounds = s.rounds
  | .pad => t.ilen = s.ilen ∧ t.params = s.params ∧ t.message = s.message
  | .unpad => t.ilen = s.ilen ∧ t.params = s.params ∧ t.message = s.message

/-- An event that neither resets the core nor starts a command. -/
def Event.quiet (e : Event) : Bool :=
  match e with
  | .host t => !t.writesCmd
  | .core => true
  | .reset => false

/-- The registers and the window that are locked while the core is busy (40_sequencer.md R113). -/
def Target.isLocked (x : Target) : Bool :=
  match x with
  | .reg .rounds => true
  | .reg .ilen => true
  | .reg .key0 => true
  | .reg .key1 => true
  | .reg .key2 => true
  | .reg .key3 => true
  | .reg .din0 => true
  | .reg .din1 => true
  | .reg .cmd => true
  | .ibufWord _ => true
  | _ => false

/-- The registers and the window that hold a command's results and read 0 while the core is busy (40_sequencer.md
R114). -/
def Target.isResult (x : Target) : Bool :=
  match x with
  | .reg .dout0 => true
  | .reg .dout1 => true
  | .reg .olen => true
  | .obufWord _ => true
  | _ => false

/-- The registers and the spaces whose writes are ignored at all times (20_memory.md R65). -/
def Target.ignoresWrites (x : Target) : Bool :=
  match x with
  | .reg .id => true
  | .reg .cap => true
  | .reg .olen => true
  | .reg .dout0 => true
  | .reg .dout1 => true
  | .obufWord _ => true
  | .reserved => true
  | _ => false

/-- The error code a command reports, by the checks of 60_exceptions.md R264 in their order; 0 is success. -/
def reportedCode (i : Instr) (s : State) : BitVec 4 :=
  match i with
  | .encBlock => 0#4
  | .decBlock => 0#4
  | .pad => if s.messageLength ≥ s.params.msgBytes then 4#4 else 0#4
  | .ecbEnc => if s.messageLength ≥ s.params.msgBytes then 4#4 else 0#4
  | .unpad =>
    if s.messageLength > s.params.msgBytes then 4#4 else if unpadBytes s.message = none then 2#4 else 0#4
  | .ecbDec =>
    if s.messageLength > s.params.msgBytes then 4#4
    else if s.messageLength % 8 ≠ 0 ∨ s.messageLength = 0 then 1#4
    else if unpadBytes (ecbDecryptBlocks s.message s.key s.roundCount) = none then 2#4 else 0#4

/-- A character that the host's `strip` removes: space, tab, CR, LF, VT, FF (92_eei_decisions.md D30). -/
def IsWhite (c : Char) : Prop :=
  c.toNat = 32 ∨ c.toNat = 9 ∨ c.toNat = 13 ∨ c.toNat = 10 ∨ c.toNat = 11 ∨ c.toNat = 12

/-- A hex digit, upper or lower case, and its value (46_host_helpers.md R241). -/
def IsHexDigit (c : Char) (v : Nat) : Prop :=
  ('0' ≤ c ∧ c ≤ '9' ∧ c.toNat = '0'.toNat + v) ∨ ('a' ≤ c ∧ c ≤ 'f' ∧ c.toNat + 10 = 'a'.toNat + v) ∨
    ('A' ≤ c ∧ c ≤ 'F' ∧ c.toNat + 10 = 'A'.toNat + v)

end Sys2Proof.Machine
end

