-- ==== Sys2Proof/Certificates/Slice0/Obligations.lean ====
section
/-! DEFINITION. The statements for the provers. Each docstring names the rule or the section of spec/ it formalises. -/

open Sys2Proof Sys2Proof.Machine

/-! ## Command words -/

/-- 30_encoding.md R91: the opcode map, whole: the six words with their commands, and the reserved OP values. -/
def Obligations.OpcodeMapOfTable : Prop :=
  (decode 0x00000001#32 = .ok .encBlock ∧ decode 0x00000002#32 = .ok .decBlock ∧
    decode 0x00000003#32 = .ok .ecbEnc ∧ decode 0x00000004#32 = .ok .ecbDec ∧
    decode 0x00000005#32 = .ok .pad ∧ decode 0x00000006#32 = .ok .unpad) ∧
  (∀ n : Nat, n < 16 → n = 0 ∨ 7 ≤ n → decode (BitVec.ofNat 32 n) = .error .reservedOp)

/-- 30_encoding.md R90, R91: encoding a command and decoding the word, as a word and as a table word, gives it back. -/
def Obligations.DecodeOfEncode : Prop :=
  ∀ i : Instr, decode (encode i) = .ok i ∧ decodeTableWord 32 (encode i).toNat = some i

/-- 30_encoding.md R92: validity by the two fields, decoding by exact match of all 32 bits, and the check made by the
completion step: every CMD write while idle starts a command, valid or not, and the Core's turn decides. -/
def Obligations.ValidWordsDecodeExactly : Prop :=
  (∀ w : Word, (∃ i, decode w = .ok i) ↔
    (w.toNat / 16 = 0 ∧ 1 ≤ w.toNat % 16 ∧ w.toNat % 16 ≤ 6)) ∧
  (∀ (w : Word) (i : Instr), decode w = .ok i ↔ w = encode i) ∧
  (∀ (s : State) (w : Word), s.status.busy = false →
    s.effectOf (.write 0x010#14 4 w) = { s with cmdreg := w, status := s.status.started }) ∧
  (∀ s : State, s.status.busy = true →
    (∀ i, decode s.cmdreg = .ok i → coreTurn s = exec i s) ∧
    (∀ e, decode s.cmdreg = .error e → coreTurn s = raiseError .invalidCommand s))

/-- 30_encoding.md R93, 40_sequencer.md R122: an illegal word completes with INVALID_COMMAND and changes nothing
else. -/
def Obligations.IllegalWordChangesOnlyStatus : Prop :=
  ∀ s : State, s.status.busy = true →
    (s.cmdreg.toNat / 16 ≠ 0 ∨ s.cmdreg.toNat % 16 = 0 ∨ 7 ≤ s.cmdreg.toNat % 16) →
    coreTurn s = .next { s with
      status := { busy := false, done := true, wbusy := s.status.wbusy, errcode := 3#4 } }

/-! ## Datapath and rounds -/

/-- 41_word_datapath.md R141, R142: sums and differences modulo 2^32, and the inverse law. -/
def Obligations.AddAndSubtractWrap : Prop :=
  ∀ a b : Word,
    (add32 a b).toNat = (a.toNat + b.toNat) % 2 ^ 32 ∧ add32 a b = add32 b a ∧
    (sub32 a b).toNat = (a.toNat + 2 ^ 32 - b.toNat) % 2 ^ 32 ∧
    sub32 (add32 a b) b = a

/-- 41_word_datapath.md R144, R145: both shifts are logical, as arithmetic and as bits. -/
def Obligations.ShiftsAreLogical : Prop :=
  ∀ y : Word,
    (shl4 y).toNat = y.toNat * 16 % 2 ^ 32 ∧ shl4 y = y.extractLsb' 0 28 ++ 0#4 ∧
    (shr5 y).toNat = y.toNat / 32 ∧ shr5 y = 0#5 ++ y.extractLsb' 5 27

/-- 41_word_datapath.md R146: MULD is the product modulo 2^32, and n repeated ADD32s of DELTA from 0. -/
def Obligations.MuldIsRepeatedAddition : Prop :=
  ∀ n : Nat, (muld n).toNat = 0x9E3779B9 * n % 2 ^ 32 ∧ muld n = (fun x => add32 x delta)^[n] 0#32

/-- 41_word_datapath.md R147, R148: the big-endian reading of four bytes, and the two inverse laws. -/
def Obligations.BigEndianWordsRoundTrip : Prop :=
  (∀ b0 b1 b2 b3 : Byte,
    (be32 [b0, b1, b2, b3]).toNat =
      b0.toNat * 2 ^ 24 + b1.toNat * 2 ^ 16 + b2.toNat * 2 ^ 8 + b3.toNat ∧
    unbe32 (be32 [b0, b1, b2, b3]) = [b0, b1, b2, b3]) ∧
  (∀ w : Word, unbe32 w = [w.extractLsb' 24 8, w.extractLsb' 16 8, w.extractLsb' 8 8, w.extractLsb' 0 8] ∧
    be32 (unbe32 w) = w)

/-- 42_round_function.md R160, R161: RoundDelta over the natural numbers, each of the three terms reduced modulo 2^32
before the XORs. -/
def Obligations.RoundDeltaReducesBeforeXor : Prop :=
  ∀ y s ka kb : Word,
    (roundDelta y s ka kb).toNat =
      ((y.toNat * 16 % 2 ^ 32 + ka.toNat) % 2 ^ 32) ^^^ ((y.toNat + s.toNat) % 2 ^ 32) ^^^
        ((y.toNat / 32 + kb.toNat) % 2 ^ 32)

/-- 42_round_function.md R167: DecRound undoes EncRound, the accumulator included. -/
def Obligations.DecRoundInvertsEncRound : Prop :=
  ∀ (k : Key) (m : Mix), decRound k (encRound k m) = m

/-- 43_block_cipher.md R180, R181: after n encryption rounds the accumulator is MULD(n); after n decryption rounds from
MULD(n) it is 0. -/
def Obligations.AccumulatorAfterRounds : Prop :=
  ∀ (k : Key) (b : Block) (n : Nat),
    (encRounds k n { v := b, s := 0#32 }).s = muld n ∧ (decRounds k n { v := b, s := muld n }).s = 0#32

/-- 43_block_cipher.md R182: decryption inverts encryption, and encryption inverts decryption, for every block, key and
round count. -/
def Obligations.DecryptInvertsEncrypt : Prop :=
  ∀ (b : Block) (k : Key) (n : Nat),
    decryptBlock (encryptBlock b k n) k n = b ∧ encryptBlock (decryptBlock b k n) k n = b

/-- 43_block_cipher.md R184: no rounds leave the block as it is, whatever the key. -/
def Obligations.ZeroRoundsAreIdentity : Prop :=
  ∀ (b : Block) (k : Key), encryptBlock b k 0 = b ∧ decryptBlock b k 0 = b

/-! ## The block commands -/

/-- 43_block_cipher.md R185: the word 0x00000001 is ENC_BLOCK, which completes in every state, writing DOUT and the flags
BUSY and DONE and nothing else. -/
def Obligations.EncBlockCompletes : Prop :=
  ∀ s : State, decode 0x00000001#32 = .ok .encBlock ∧
    exec .encBlock s = .next { s with
      dout := encryptBlock s.din s.key s.rounds.toNat
      status := { busy := false, done := true, wbusy := s.status.wbusy, errcode := s.status.errcode } } ∧
    (s.rounds = 0#8 → encryptBlock s.din s.key s.rounds.toNat = s.din)

/-- 43_block_cipher.md R186: the word 0x00000002 is DEC_BLOCK, which completes in every state, writing DOUT and the flags
BUSY and DONE and nothing else. -/
def Obligations.DecBlockCompletes : Prop :=
  ∀ s : State, decode 0x00000002#32 = .ok .decBlock ∧
    exec .decBlock s = .next { s with
      dout := decryptBlock s.din s.key s.rounds.toNat
      status := { busy := false, done := true, wbusy := s.status.wbusy, errcode := s.status.errcode } } ∧
    (s.rounds = 0#8 → decryptBlock s.din s.key s.rounds.toNat = s.din)

/-! ## The padding functions and commands -/

/-- 44_padding_codec.md R201: the padded length, always greater and always a multiple of 8, and every appended byte
equal to the pad length, which is in 1..8. -/
def Obligations.PaddingGrowsToBlocks : Prop :=
  ∀ d : Bytes,
    (padBytes d).length = 8 * (d.length / 8 + 1) ∧ d.length < (padBytes d).length ∧
    (padBytes d).length % 8 = 0 ∧
    (∃ n : Nat, 1 ≤ n ∧ n ≤ 8 ∧ padBytes d = d ++ List.replicate n (BitVec.ofNat 8 n))

/-- 44_padding_codec.md R203: Unpad undoes Pad. -/
def Obligations.UnpadInvertsPad : Prop :=
  ∀ d : Bytes, unpadBytes (padBytes d) = some d

/-- 44_padding_codec.md R202: Unpad succeeds exactly on a string that ends in n bytes equal to n, for an n in 1..8, and
answers what stands before them. -/
def Obligations.UnpadAcceptsExactlyPadding : Prop :=
  ∀ d u : Bytes,
    unpadBytes d = some u ↔
      ∃ n : Nat, 1 ≤ n ∧ n ≤ 8 ∧ d = u ++ List.replicate n (BitVec.ofNat 8 n)

/-- 44_padding_codec.md R204: PAD completes on every message shorter than MSG_BYTES: the padded message in OBUF, its
length in OLEN, OBUF from there on, DOUT, ERRCODE and every input unchanged. -/
def Obligations.PadCompletes : Prop :=
  ∀ s : State, s.params.wf = true → s.ilen.toNat < s.params.msgBytes →
    ∃ t, exec .pad s = .next t ∧ s.KeepsInputs t ∧ s.CompletedWith t s.status.errcode ∧ t.dout = s.dout ∧
      t.olen.toNat = 8 * (s.ilen.toNat / 8 + 1) ∧
      t.obufBytes 0 t.olen.toNat = padBytes (s.ibufBytes 0 s.ilen.toNat) ∧
      (∀ a, t.olen.toNat ≤ a → t.obufByte a = s.obufByte a)

/-- 44_padding_codec.md R205: UNPAD completes on every message that fits and is padded: the message without its padding
in OBUF, its length in OLEN, the rest unchanged. -/
def Obligations.UnpadCompletes : Prop :=
  ∀ (s : State) (u : Bytes), s.params.wf = true → s.ilen.toNat ≤ s.params.msgBytes →
    unpadBytes (s.ibufBytes 0 s.ilen.toNat) = some u →
    ∃ t, exec .unpad s = .next t ∧ s.KeepsInputs t ∧ s.CompletedWith t s.status.errcode ∧ t.dout = s.dout ∧
      t.olen.toNat = u.length ∧ t.obufBytes 0 u.length = u ∧
      (∀ a, u.length ≤ a → t.obufByte a = s.obufByte a)

/-- 44_padding_codec.md R205: UNPAD of a message that fits and is not padded reports INVALID_PADDING: OLEN = 0, and OBUF
and everything else unchanged. -/
def Obligations.UnpadReportsBadPadding : Prop :=
  ∀ s : State, s.ilen.toNat ≤ s.params.msgBytes →
    unpadBytes (s.ibufBytes 0 s.ilen.toNat) = none →
    exec .unpad s = .next { s with
      olen := 0#32
      status := { busy := false, done := true, wbusy := s.status.wbusy, errcode := 2#4 } }

/-! ## The ECB functions and commands -/

/-- 45_ecb_driver.md R222: block j of the output depends only on block j of the (padded) input, the key and the round
count, so equal blocks give equal blocks. -/
def Obligations.EcbBlocksAreIndependent : Prop :=
  ∀ (d c : Bytes) (k : Key) (n j : Nat),
    (j < (padBytes d).length / 8 →
      slice (ecbEncrypt d k n) (8 * j) (8 * j + 8) = blockBytes (encryptBlock (blockAt (padBytes d) j) k n)) ∧
    (j < c.length / 8 →
      slice (ecbDecryptBlocks c k n) (8 * j) (8 * j + 8) = blockBytes (decryptBlock (blockAt c j) k n)) ∧
    (∀ i, i < (padBytes d).length / 8 → j < (padBytes d).length / 8 →
      slice (padBytes d) (8 * i) (8 * i + 8) = slice (padBytes d) (8 * j) (8 * j + 8) →
      slice (ecbEncrypt d k n) (8 * i) (8 * i + 8) = slice (ecbEncrypt d k n) (8 * j) (8 * j + 8))

/-- 45_ecb_driver.md R220, R221, 44_padding_codec.md R203: decrypting the blocks of an encrypted message and unpadding
gives the message, for every message, key and round count (95_test_vectors.md E1). -/
def Obligations.EcbDecryptInvertsEncrypt : Prop :=
  ∀ (d : Bytes) (k : Key) (n : Nat),
    ecbDecryptBlocks (ecbEncrypt d k n) k n = padBytes d ∧
    unpadBytes (ecbDecryptBlocks (ecbEncrypt d k n) k n) = some d

/-- 45_ecb_driver.md R223: ECB_ENC completes on every message shorter than MSG_BYTES: the ciphertext in OBUF, its length
in OLEN, OBUF from there on, DOUT, ERRCODE and every input unchanged. -/
def Obligations.EcbEncCompletes : Prop :=
  ∀ s : State, s.params.wf = true → s.ilen.toNat < s.params.msgBytes →
    ∃ t, exec .ecbEnc s = .next t ∧ s.KeepsInputs t ∧ s.CompletedWith t s.status.errcode ∧ t.dout = s.dout ∧
      t.olen.toNat = 8 * (s.ilen.toNat / 8 + 1) ∧
      t.obufBytes 0 t.olen.toNat = ecbEncrypt (s.ibufBytes 0 s.ilen.toNat) s.key s.rounds.toNat ∧
      (∀ a, t.olen.toNat ≤ a → t.obufByte a = s.obufByte a)

/-- 45_ecb_driver.md R224: ECB_DEC of a non-empty whole number of blocks that fits and decrypts to a padded message:
the decrypted blocks in OBUF, pad bytes included, the unpadded length in OLEN, the rest unchanged. -/
def Obligations.EcbDecCompletes : Prop :=
  ∀ (s : State) (u : Bytes), s.params.wf = true → s.ilen.toNat ≤ s.params.msgBytes → s.ilen.toNat % 8 = 0 →
    s.ilen.toNat ≠ 0 →
    unpadBytes (ecbDecryptBlocks (s.ibufBytes 0 s.ilen.toNat) s.key s.rounds.toNat) = some u →
    ∃ t, exec .ecbDec s = .next t ∧ s.KeepsInputs t ∧ s.CompletedWith t s.status.errcode ∧ t.dout = s.dout ∧
      t.olen.toNat = u.length ∧
      t.obufBytes 0 s.ilen.toNat = ecbDecryptBlocks (s.ibufBytes 0 s.ilen.toNat) s.key s.rounds.toNat ∧
      t.obufBytes 0 t.olen.toNat = u ∧
      (∀ a, s.ilen.toNat ≤ a → t.obufByte a = s.obufByte a)

/-- 45_ecb_driver.md R224: ECB_DEC whose decrypted blocks are not padded reports INVALID_PADDING with OLEN = 0 and
leaves the decrypted blocks in OBUF. -/
def Obligations.EcbDecReportsBadPadding : Prop :=
  ∀ s : State, s.params.wf = true → s.ilen.toNat ≤ s.params.msgBytes → s.ilen.toNat % 8 = 0 →
    s.ilen.toNat ≠ 0 →
    unpadBytes (ecbDecryptBlocks (s.ibufBytes 0 s.ilen.toNat) s.key s.rounds.toNat) = none →
    ∃ t, exec .ecbDec s = .next t ∧ s.KeepsInputs t ∧ s.CompletedWith t 2#4 ∧ t.dout = s.dout ∧ t.olen = 0#32 ∧
      t.obufBytes 0 s.ilen.toNat = ecbDecryptBlocks (s.ibufBytes 0 s.ilen.toNat) s.key s.rounds.toNat ∧
      (∀ a, s.ilen.toNat ≤ a → t.obufByte a = s.obufByte a)

/-- 45_ecb_driver.md R224: ECB_DEC of a length that fits and is 0 or no multiple of 8 reports
INVALID_CIPHERTEXT_LENGTH: OLEN = 0, and everything else unchanged. -/
def Obligations.EcbDecReportsBadLength : Prop :=
  ∀ s : State, s.ilen.toNat ≤ s.params.msgBytes → s.ilen.toNat % 8 ≠ 0 ∨ s.ilen.toNat = 0 →
    exec .ecbDec s = .next { s with
      olen := 0#32
      status := { busy := false, done := true, wbusy := s.status.wbusy, errcode := 1#4 } }

/-- 60_exceptions.md R261, R264: LENGTH_OVERFLOW is the first check of the four message commands, at MSG_BYTES for PAD and
ECB_ENC and above it for UNPAD and ECB_DEC: OLEN = 0, and everything else unchanged. -/
def Obligations.LengthOverflowComesFirst : Prop :=
  ∀ (s : State) (i : Instr),
    (s.ilen.toNat ≥ s.params.msgBytes ∧ (i = .pad ∨ i = .ecbEnc)) ∨
      (s.ilen.toNat > s.params.msgBytes ∧ (i = .unpad ∨ i = .ecbDec)) →
    exec i s = .next { s with
      olen := 0#32
      status := { busy := false, done := true, wbusy := s.status.wbusy, errcode := 4#4 } }

/-- 45_ecb_driver.md R225: ECB_ENC without error, its output moved into IBUF with ILEN = OLEN, the key and the round
count kept, then ECB_DEC: it completes without error and gives the message back. -/
def Obligations.EcbCommandsRoundTrip : Prop :=
  ∀ s t u : State, s.params.wf = true → s.status.errcode = 0#4 → exec .ecbEnc s = .next t →
    t.status.errcode = 0#4 →
    u.params = s.params → u.key = s.key → u.rounds = s.rounds → u.status.errcode = 0#4 →
    u.ilen = t.olen → (∀ a, a < t.olen.toNat → u.ibufByte a = t.obufByte a) →
    ∃ v, exec .ecbDec u = .next v ∧ v.status.errcode = 0#4 ∧ v.olen = s.ilen ∧
      v.obufBytes 0 s.ilen.toNat = s.ibufBytes 0 s.ilen.toNat

/-! ## All commands -/

/-- 30_encoding.md R94, 40_sequencer.md R115: the frame of every command: no input, no control register, no latch and
not WBUSY changes. -/
def Obligations.CommandsKeepInputs : Prop :=
  ∀ (i : Instr) (s t : State), exec i s = .next t → s.KeepsInputs t

/-- 30_encoding.md R94: a block command leaves OLEN and every byte of OBUF; a message command leaves DOUT, and every
byte of OBUF outside the result's place. -/
def Obligations.CommandsKeepOtherResults : Prop :=
  ∀ (i : Instr) (s t : State), exec i s = .next t →
    (isBlockCommand i = true → t.olen = s.olen ∧ ∀ a, t.obufByte a = s.obufByte a) ∧
    (isBlockCommand i = false → t.dout = s.dout ∧
      ∀ a, (if i = .ecbDec then s.ilen.toNat else t.olen.toNat) ≤ a → s.params.wf = true →
        t.obufByte a = s.obufByte a)

/-- 60_exceptions.md R264: with legal parameters every command completes, and reports exactly the first check that
fails. -/
def Obligations.OneErrorInPriorityOrder : Prop :=
  ∀ (i : Instr) (s : State), s.params.wf = true → s.status.errcode = 0#4 →
    ∃ t, exec i s = .next t ∧ s.CompletedWith t (reportedCode i s)

/-- 60_exceptions.md R263: the state after a failed command, its code included. -/
def Obligations.FailedCommandLeavesResults : Prop :=
  ∀ s t : State, s.params.wf = true → s.status.errcode = 0#4 → completionStep s = .next t →
    t.status.errcode ≠ 0#4 →
    s.KeepsInputs t ∧ t.dout = s.dout ∧ t.status.done = true ∧ t.status.busy = false ∧
    (∀ i, decode s.cmdreg = .ok i → t.olen = 0#32 ∧ t.status.errcode = reportedCode i s) ∧
    (∀ e, decode s.cmdreg = .error e → t.olen = s.olen ∧ t.status.errcode = 3#4) ∧
    (¬ (decode s.cmdreg = .ok .ecbDec ∧ t.status.errcode = 2#4) → ∀ a, t.obufByte a = s.obufByte a) ∧
    (decode s.cmdreg = .ok .ecbDec ∧ t.status.errcode = 2#4 →
      t.obufBytes 0 s.ilen.toNat = ecbDecryptBlocks (s.ibufBytes 0 s.ilen.toNat) s.key s.rounds.toNat ∧
      ∀ a, s.ilen.toNat ≤ a → t.obufByte a = s.obufByte a)

/-- 40_sequencer.md R120, 30_encoding.md R94: what a command writes is a function of what it reads: two states that agree
on that get the same code and the same results, byte for byte: DOUT, or OLEN and the bytes of OBUF the command writes,
which for ECB_DEC are those of the whole ciphertext's length once its length checks pass. -/
def Obligations.ResultsDependOnReadsOnly : Prop :=
  ∀ (i : Instr) (s s' t t' : State), SameReads i s s' → s'.status.errcode = s.status.errcode →
    exec i s = .next t → exec i s' = .next t' →
    t'.status.errcode = t.status.errcode ∧ t'.status.busy = t.status.busy ∧ t'.status.done = t.status.done ∧
    (isBlockCommand i = true → t'.dout = t.dout) ∧
    (isBlockCommand i = false → t'.olen = t.olen ∧ t'.obufBytes 0 t.olen.toNat = t.obufBytes 0 t.olen.toNat) ∧
    (i = .ecbDec → s.ilen.toNat ≤ s.params.msgBytes → s.ilen.toNat % 8 = 0 →
      t'.obufBytes 0 s.ilen.toNat = t.obufBytes 0 s.ilen.toNat)

/-! ## The sequencer -/

/-- 20_memory.md R73, 40_sequencer.md R115: a step takes the first event of the schedule, whole; with none left it is the
Core's turn; and the Core's turn in an idle core changes nothing. The schedule is the model's own field (log 3), and so is
the waiting of an idle core's turn (log 4). -/
def Obligations.StepTakesNextEvent : Prop :=
  ∀ s : State,
    (∀ t rest, s.schedule = .host t :: rest →
      step s = .next { s.effectOf t with schedule := rest, answer := some (s.answerTo t) }) ∧
    (∀ rest, s.schedule = .reset :: rest → step s = .next { resetEvent s with schedule := rest }) ∧
    (∀ rest, s.schedule = .core :: rest → step s = coreTurn { s with schedule := rest }) ∧
    (s.schedule = [] → step s = coreTurn s) ∧
    (s.status.busy = false → coreTurn s = .next s)

/-- 40_sequencer.md R115, R116: in the Core's turn a running core executes the command its latch decodes to. That a step
with an empty schedule is the Core's turn is the model's reading of weak fairness (log 3). -/
def Obligations.StepRunsDecodedCommand : Prop :=
  ∀ (s : State) (i : Instr), s.status.busy = true → decode s.cmdreg = .ok i →
    (∀ rest, s.schedule = .core :: rest → step s = exec i { s with schedule := rest }) ∧
    (s.schedule = [] → step s = exec i s)

/-- 40_sequencer.md R110: the core leaves idle only by an accepted CMD write, and leaves running only in the Core's turn
or by a reset. -/
def Obligations.IdleAndRunningTransitions : Prop :=
  ∀ s t : State, step s = .next t →
    (s.status.busy = false → t.status.busy = true →
      ∃ w rest, s.schedule = .host (.write 0x010#14 4 w) :: rest ∧ t.cmdreg = w) ∧
    (s.status.busy = true → t.status.busy = false →
      s.schedule = [] ∨ (∃ rest, s.schedule = .core :: rest) ∨ (∃ rest, s.schedule = .reset :: rest))

/-- 40_sequencer.md R111: the start of a command, by a CMD write to an idle core. -/
def Obligations.CmdWriteStartsCommand : Prop :=
  ∀ (s : State) (w : Word), s.status.busy = false →
    s.answerTo (.write 0x010#14 4 w) = { resp := .okay, rdata := none } ∧
    s.effectOf (.write 0x010#14 4 w) = { s with
      cmdreg := w
      status := { busy := true, done := false, wbusy := s.status.wbusy, errcode := 0#4 } }

/-- 40_sequencer.md R112, R113, 20_memory.md R65: while busy, a write to a locked target is lost and sets WBUSY; CTRL
and STATUS are written as usual; every other write is ignored without setting WBUSY; every one is answered OKAY. -/
def Obligations.BusyLockLosesWrites : Prop :=
  ∀ (s : State) (offset : BitVec 14) (w : Word), s.status.busy = true → offset.toNat % 4 = 0 →
    s.answerTo (.write offset 4 w) = { resp := .okay, rdata := none } ∧
    ((target s.params offset.toNat).isLocked = true →
      s.effectOf (.write offset 4 w) = { s with
        status := { busy := true, done := s.status.done, wbusy := true, errcode := s.status.errcode } }) ∧
    ((target s.params offset.toNat).ignoresWrites = true → s.effectOf (.write offset 4 w) = s) ∧
    (offset = 0x008#14 → s.effectOf (.write offset 4 w) = { s with ctrl := { ie := w.getLsbD 0 } }) ∧
    (offset = 0x014#14 → s.effectOf (.write offset 4 w) = { s with status := s.status.written w })

/-- 40_sequencer.md R114, 10_state.md R33, R25: while busy, the results read 0 and every other offset but STATUS reads as
it would in an idle core; STATUS reads its own fields; the keys and CMD read 0 at all times. -/
def Obligations.BusyReadsHideResults : Prop :=
  ∀ (s : State) (off : Nat),
    (s.status.busy = true → (target s.params off).isResult = true → s.readWord off = 0#32) ∧
    (s.status.busy = true → (target s.params off).isResult = false → off ≠ Reg.status.offset →
      s.readWord off = State.readWord { s with status := { s.status with busy := false } } off) ∧
    (off = Reg.status.offset → s.readWord off = s.status.word) ∧
    (s.readReg .key0 = 0#32 ∧ s.readReg .key1 = 0#32 ∧ s.readReg .key2 = 0#32 ∧ s.readReg .key3 = 0#32 ∧
      s.readReg .cmd = 0#32)

/-- 40_sequencer.md R113, R120: however many transactions fall between the start and the completion step, the command
reads the same inputs and writes the same results as when it completes at once. -/
def Obligations.CompletionTimeDoesNotMatter : Prop :=
  ∀ (s : State) (hs : List Transaction), s.Inv → s.status.busy = true →
    ∃ t u, stepsTo (hs.length + 1) (s.setSchedule (hs.map Event.host ++ [Event.core])) = .next t ∧
      stepsTo 1 (s.setSchedule [Event.core]) = .next u ∧
      u.SameInputs t ∧ u.SameResults t ∧ t.status.busy = false ∧ t.status.done = true

/-- 40_sequencer.md R119: every started command completes: unless a reset stands in the schedule, the core is idle with
DONE = 1 after at most one step more than the schedule is long. That the Core's turn follows the schedule's end is the
model's reading of weak fairness (log 3). -/
def Obligations.StartedCommandCompletes : Prop :=
  ∀ s : State, s.Inv → s.status.busy = true → Event.reset ∉ s.schedule →
    ∃ k t, k ≤ s.schedule.length + 1 ∧ stepsTo k s = .next t ∧ t.status.busy = false ∧ t.status.done = true

/-- 20_memory.md R75: once a command has completed, every later read of a result returns the same word until the next
accepted CMD write or the next reset. -/
def Obligations.ResultsStayUntilNextStart : Prop :=
  ∀ (k : Nat) (s t : State), s.status.busy = false → (∀ e ∈ s.schedule, Event.quiet e = true) →
    stepsTo k s = .next t →
    t.status.busy = false ∧
    ∀ off, (target s.params off).isResult = true → t.readWord off = s.readWord off

/-! ## The host port -/

/-- 20_memory.md R63, R64, 60_exceptions.md R265: a transaction of another size or misaligned is answered ERROR, changes
nothing, and a read returns 0. No read at all, accepted or not, changes any state ("reading any offset changes no state",
R72). -/
def Obligations.BadTransactionChangesNothing : Prop :=
  ∀ (s : State) (offset : BitVec 14) (size : Nat) (w : Word),
    s.effectOf (.read offset size) = s ∧
    (size ≠ 4 ∨ offset.extractLsb' 0 2 ≠ 0#2 →
      s.answerTo (.read offset size) = { resp := .error, rdata := some 0#32 } ∧
      s.answerTo (.write offset size w) = { resp := .error, rdata := none } ∧
      s.effectOf (.write offset size w) = s)

/-- 20_memory.md R65, R67: reserved offsets and window words at or past MSG_BYTES read 0 and ignore writes, with OKAY; so
do writes to the read-only registers and to the OBUF window. -/
def Obligations.ReservedReadsZeroIgnoresWrites : Prop :=
  ∀ (s : State) (offset : BitVec 14) (w : Word), offset.toNat % 4 = 0 →
    ((0x40 ≤ offset.toNat ∧ offset.toNat < 0x1000) ∨ 0x3000 ≤ offset.toNat ∨
        (0x1000 ≤ offset.toNat ∧ offset.toNat < 0x2000 ∧ s.params.msgBytes ≤ offset.toNat - 0x1000) ∨
        (0x2000 ≤ offset.toNat ∧ offset.toNat < 0x3000 ∧ s.params.msgBytes ≤ offset.toNat - 0x2000) →
      s.answerTo (.read offset 4) = { resp := .okay, rdata := some 0#32 } ∧
      s.answerTo (.write offset 4 w) = { resp := .okay, rdata := none } ∧ s.effectOf (.write offset 4 w) = s) ∧
    (offset = 0x000#14 ∨ offset = 0x004#14 ∨ offset = 0x01C#14 ∨ offset = 0x038#14 ∨ offset = 0x03C#14 ∨
        (0x2000 ≤ offset.toNat ∧ offset.toNat < 0x3000) →
      s.answerTo (.write offset 4 w) = { resp := .okay, rdata := none } ∧ s.effectOf (.write offset 4 w) = s)

/-- 20_memory.md R66, R68: an IBUF window word reads as its four bytes big-endian in every state, busy or idle; written
while idle it stands in IBUF big-endian, is read back, and every other byte of IBUF and all other state is left alone;
written while busy it is ignored and sets WBUSY. -/
def Obligations.IbufWindowIsBigEndian : Prop :=
  ∀ (s : State) (j : Nat) (w : Word), s.params.wf = true → 4 * j < s.params.msgBytes →
    s.answerTo (.read (BitVec.ofNat 14 (0x1000 + 4 * j)) 4) = Answer.mk .okay (some
      (be32 [s.ibufByte (4 * j), s.ibufByte (4 * j + 1), s.ibufByte (4 * j + 2), s.ibufByte (4 * j + 3)])) ∧
    (s.status.busy = false →
      ∃ t, s.effectOf (.write (BitVec.ofNat 14 (0x1000 + 4 * j)) 4 w) = t ∧ t = { s with ibuf := t.ibuf } ∧
        t.ibufByte (4 * j) = w.extractLsb' 24 8 ∧ t.ibufByte (4 * j + 1) = w.extractLsb' 16 8 ∧
        t.ibufByte (4 * j + 2) = w.extractLsb' 8 8 ∧ t.ibufByte (4 * j + 3) = w.extractLsb' 0 8 ∧
        (∀ a, a < 4 * j ∨ 4 * j + 4 ≤ a → t.ibufByte a = s.ibufByte a) ∧
        t.answerTo (.read (BitVec.ofNat 14 (0x1000 + 4 * j)) 4) = { resp := .okay, rdata := some w }) ∧
    (s.status.busy = true →
      s.effectOf (.write (BitVec.ofNat 14 (0x1000 + 4 * j)) 4 w) = { s with
        status := { busy := true, done := s.status.done, wbusy := true, errcode := s.status.errcode } })

/-- 20_memory.md R69: an OBUF window word reads as its four bytes big-endian while idle and as 0 while busy; writes to
the window are ignored with OKAY and never set WBUSY. -/
def Obligations.ObufWindowReadsWhenIdle : Prop :=
  ∀ (s : State) (j : Nat) (w : Word), s.params.wf = true → 4 * j < s.params.msgBytes →
    s.answerTo (.read (BitVec.ofNat 14 (0x2000 + 4 * j)) 4) = Answer.mk .okay (some
      (if s.status.busy then 0#32
        else be32 [s.obufByte (4 * j), s.obufByte (4 * j + 1), s.obufByte (4 * j + 2), s.obufByte (4 * j + 3)])) ∧
    s.answerTo (.write (BitVec.ofNat 14 (0x2000 + 4 * j)) 4 w) = { resp := .okay, rdata := none } ∧
    s.effectOf (.write (BitVec.ofNat 14 (0x2000 + 4 * j)) 4 w) = s

/-- 10_state.md R21 to R25, R31 to R35: the register page of an idle core but for STATUS (R26 to R30 are
StatusBitsAndWriteOneToClear), as the host reads it, writes it and reads it back: the constants, the writable bits and no
others (CTRL bit 0 and ROUNDS bits 7:0, the reserved bits reading 0), the keys stored where no read shows them, CMD
reading 0, and the results. -/
def Obligations.IdleRegisterWrites : Prop :=
  ∀ (s : State) (w : Word), s.status.busy = false →
    s.readWord 0x000 = 0x54454131#32 ∧ s.readWord 0x004 = BitVec.ofNat 32 s.params.msgBytes ∧
    (s.readWord 0x008 = 0#31 ++ BitVec.ofBool s.ctrl.ie ∧
      s.effectOf (.write 0x008#14 4 w) = { s with ctrl := { ie := w.getLsbD 0 } } ∧
      (State.readWord (s.effectOf (.write 0x008#14 4 w)) 0x008).toNat = w.toNat % 2) ∧
    (s.readWord 0x00C = 0#24 ++ s.rounds ∧
      s.effectOf (.write 0x00C#14 4 w) = { s with rounds := w.extractLsb' 0 8 } ∧
      (State.readWord (s.effectOf (.write 0x00C#14 4 w)) 0x00C).toNat = w.toNat % 256) ∧
    s.readWord 0x010 = 0#32 ∧
    (s.readWord 0x018 = s.ilen ∧ s.effectOf (.write 0x018#14 4 w) = { s with ilen := w } ∧
      State.readWord (s.effectOf (.write 0x018#14 4 w)) 0x018 = w) ∧
    (s.effectOf (.write 0x020#14 4 w) = { s with key := { s.key with k0 := w } } ∧
      s.effectOf (.write 0x024#14 4 w) = { s with key := { s.key with k1 := w } } ∧
      s.effectOf (.write 0x028#14 4 w) = { s with key := { s.key with k2 := w } } ∧
      s.effectOf (.write 0x02C#14 4 w) = { s with key := { s.key with k3 := w } } ∧
      s.readWord 0x020 = 0#32 ∧ s.readWord 0x024 = 0#32 ∧ s.readWord 0x028 = 0#32 ∧ s.readWord 0x02C = 0#32) ∧
    (s.readWord 0x030 = s.din.v0 ∧ s.readWord 0x034 = s.din.v1 ∧
      s.effectOf (.write 0x030#14 4 w) = { s with din := { s.din with v0 := w } } ∧
      s.effectOf (.write 0x034#14 4 w) = { s with din := { s.din with v1 := w } } ∧
      State.readWord (s.effectOf (.write 0x030#14 4 w)) 0x030 = w ∧
      State.readWord (s.effectOf (.write 0x034#14 4 w)) 0x034 = w) ∧
    (s.readWord 0x01C = s.olen ∧ s.readWord 0x038 = s.dout.v0 ∧ s.readWord 0x03C = s.dout.v1)

/-- 10_state.md R33: no answer of the port depends on the key. -/
def Obligations.KeyCannotBeReadBack : Prop :=
  ∀ (s : State) (k : Key) (t : Transaction), State.answerTo { s with key := k } t = s.answerTo t

/-! ## STATUS, CTRL and the interrupt -/

/-- 10_state.md R27, R28, R29, R30: the bits of STATUS as the host reads them, and a host write of STATUS: bit 1 clears
DONE, bit 2 clears WBUSY, and BUSY, ERRCODE and all other state never change by it. -/
def Obligations.StatusBitsAndWriteOneToClear : Prop :=
  ∀ (s : State) (w : Word),
    (s.readWord 0x014).toNat =
      s.status.busy.toNat + 2 * s.status.done.toNat + 4 * s.status.wbusy.toNat + 256 * s.status.errcode.toNat ∧
    s.effectOf (.write 0x014#14 4 w) = { s with
      status := { busy := s.status.busy, done := if w.getLsbD 1 then false else s.status.done,
                  wbusy := if w.getLsbD 2 then false else s.status.wbusy, errcode := s.status.errcode } }

/-- 10_state.md R28: once set, WBUSY is cleared only by a write of STATUS with bit 2 set, or by a reset. -/
def Obligations.WbusyIsSticky : Prop :=
  ∀ s t : State, step s = .next t → s.status.wbusy = true → t.status.wbusy = false →
    (∃ w rest, s.schedule = .host (.write 0x014#14 4 w) :: rest ∧ w.getLsbD 2 = true) ∨
    (∃ rest, s.schedule = .reset :: rest)

/-- 60_exceptions.md R267, R268, 10_state.md R23: the interrupt output, raised at once by IE = 1 while DONE = 1, kept
pending by masking, cleared by each of the four ways the rule names, and asserted after every completion, successful or
failed, while CTRL.IE = 1. -/
def Obligations.InterruptFollowsDoneAndEnable : Prop :=
  ∀ (s : State) (w : Word),
    s.irq = (s.status.done && s.ctrl.ie) ∧
    s.effectOf (.write 0x008#14 4 w) = { s with ctrl := { ie := w.getLsbD 0 } } ∧
    (s.status.done = true → w.getLsbD 0 = true → (s.effectOf (.write 0x008#14 4 w)).irq = true) ∧
    (w.getLsbD 0 = false → (s.effectOf (.write 0x008#14 4 w)).irq = false ∧
      (s.effectOf (.write 0x008#14 4 w)).status.done = s.status.done) ∧
    (w.getLsbD 1 = true → (s.effectOf (.write 0x014#14 4 w)).irq = false) ∧
    (s.status.busy = false → (s.effectOf (.write 0x010#14 4 w)).irq = false) ∧
    (resetEvent s).irq = false ∧
    (∀ t, s.status.busy = true → coreTurn s = .next t → t.irq = s.ctrl.ie)

/-! ## Reset, invariant and memory -/

/-- 70_reset_and_hazards.md R290, R291: the reset event in any state, running or not: every register at its reset value
and no command running. Three clauses are the model's own: the schedule (log 3) goes on and the parameters stay (log 14),
and the Core's turn in the idle core after the reset changes nothing (log 4). -/
def Obligations.ResetRestoresRegisters : Prop :=
  ∀ s : State,
    (resetEvent s).ctrl = { ie := false } ∧ (resetEvent s).rounds = 0x20#8 ∧
    (resetEvent s).status = { busy := false, done := false, wbusy := false, errcode := 0#4 } ∧
    (resetEvent s).ilen = 0#32 ∧ (resetEvent s).olen = 0#32 ∧
    (resetEvent s).key = { k0 := 0#32, k1 := 0#32, k2 := 0#32, k3 := 0#32 } ∧
    (resetEvent s).din = { v0 := 0#32, v1 := 0#32 } ∧ (resetEvent s).dout = { v0 := 0#32, v1 := 0#32 } ∧
    (resetEvent s).cmdreg = 0#32 ∧ (resetEvent s).irq = false ∧ (resetEvent s).readWord 0x010 = 0#32 ∧
    (resetEvent s).readWord 0x000 = 0x54454131#32 ∧
    (resetEvent s).readWord 0x004 = BitVec.ofNat 32 s.params.msgBytes ∧
    coreTurn (resetEvent s) = .next (resetEvent s) ∧
    (resetEvent s).params = s.params ∧ (resetEvent s).schedule = s.schedule

/-- 00_scope.md R6, 70_reset_and_hazards.md R290: the machine right after reset meets the invariant, with every legal
pair of parameters. -/
def Obligations.ResetMeetsInvariant : Prop :=
  State.reset.Inv ∧ ∀ p : Params, p.wf = true → (State.resetWith p).Inv

/-- 10_state.md R27, R29, R36, R37, 60_exceptions.md R261, 20_memory.md R79: every step keeps the invariant: legal
parameters, both buffers in canonical form within MSG_BYTES, DONE = 0 and ERRCODE = 0 while running, no error code above
4, and OLEN within MSG_BYTES. -/
def Obligations.StepKeepsInvariant : Prop :=
  ∀ s t : State, s.Inv → step s = .next t → t.Inv

/-- 20_memory.md R79, 40_sequencer.md R118, 60_exceptions.md R269, R276: from a state that meets the invariant the machine
never stops: every run of every length answers a next state, which meets the invariant. That an idle core's turn is a step
(which changes nothing) is the model's own: the spec has no such step, only a core that "waits" (log 4). That a run goes on
past the end of the schedule, with the Core's turn at every step, is the model's reading of weak fairness (log 3). -/
def Obligations.EveryRunGoesOn : Prop :=
  ∀ (k : Nat) (s : State), s.Inv → ∃ t, stepsTo k s = .next t ∧ t.Inv

/-- 10_state.md R36, R37: two buffers in canonical form that list the same indices with the same bytes are the same data.
The form is the model's own (log 2), and so is the premise: it compares what the buffers list (`Memory.lookup`), since two
states may read alike where one lists a byte that the other leaves to the reset's free draw. -/
def Obligations.EqualBuffersAreEqualData : Prop :=
  ∀ m m' : Memory, m.wf → m'.wf → (∀ a, m.lookup a = m'.lookup a) → m = m'

/-! ## The host's software -/

/-- 46_host_helpers.md R241, 92_eei_decisions.md D30: parseKey gives a key exactly for a string that is white space, then
32 hex digits, then white space, and the key's byte i is then 16 times the value of digit 2i plus the value of digit 2i+1;
every other string gives InvalidKeyFormat. What is white and what a digit's value is, `IsWhite` and `IsHexDigit` spell
out. -/
def Obligations.ParseKeyReadsHexPairs : Prop :=
  ∀ h : List Char,
    (∀ k : Bytes, parseKey h = .ok k ↔
      ∃ before digits after : List Char, h = before ++ digits ++ after ∧
        (∀ c ∈ before, IsWhite c) ∧ (∀ c ∈ after, IsWhite c) ∧ digits.length = 32 ∧ k.length = 16 ∧
        ∀ i, i < 16 → ∃ a b : Nat,
          IsHexDigit (digits.getD (2 * i) '0') a ∧ IsHexDigit (digits.getD (2 * i + 1) '0') b ∧
          k.getD i 0#8 = BitVec.ofNat 8 (16 * a + b)) ∧
    (∀ e, parseKey h = .error e → e = .invalidKeyFormat)

/-- 46_host_helpers.md R242: isValidHex, with the host parameter REQUIRE_NONEMPTY as an argument. -/
def Obligations.ValidHexCharacters : Prop :=
  ∀ (requireNonempty : Bool) (h : List Char),
    isValidHex requireNonempty h = true ↔
      (h ≠ [] ∨ requireNonempty = false) ∧
      ∀ c ∈ h, ('0' ≤ c ∧ c ≤ '9') ∨ ('a' ≤ c ∧ c ≤ 'f') ∨ ('A' ≤ c ∧ c ≤ 'F')

/-- 46_host_helpers.md R243, 30_encoding.md R97: the host's encrypt call on an idle core: its transactions, then the
completion step, leave in the host's hands exactly EcbEncrypt of the plaintext with 32 rounds; and so does the call with
its WAIT, the loop of reads of STATUS, before whichever read the Core's turn falls (`turns`). That the step after the last
transaction is the Core's turn, and that the turn comes when `turns` is used up, is the model's reading of weak fairness
(log 3). -/
def Obligations.HostEncryptGivesEcbEncrypt : Prop :=
  ∀ (s : State) (plaintext keyBytes : Bytes), s.Inv → s.status.busy = false → keyBytes.length = 16 →
    plaintext.length < s.params.msgBytes →
    ∃ script es t, hostEncryptCall plaintext keyBytes = .ok script ∧ scriptEvents script = some es ∧
      stepsTo (es.length + 1) (s.setSchedule es) = .next t ∧
      t.status.errcode = 0#4 ∧ hostCollect t = ecbEncrypt plaintext (keyOfBytes keyBytes) 32 ∧
      ∀ turns, hostEncrypt turns plaintext keyBytes s = .ok (some (ecbEncrypt plaintext (keyOfBytes keyBytes) 32))
end

