-- ==== Sys2Proof/Laws/State.lean ====
section
/-! SUPPORT. What each named update of State leaves in each field, true by rfl, so that no later proof unfolds a record
update. -/

namespace Sys2Proof.Machine

variable (s : State) (f : Status) (n : Nat) (b : Block) (w : Word) (es : List Event) (e : ErrorKind)

@[simp] theorem Status.started_busy : f.started.busy = true := rfl
@[simp] theorem Status.started_done : f.started.done = false := rfl
@[simp] theorem Status.started_wbusy : f.started.wbusy = f.wbusy := rfl
@[simp] theorem Status.started_errcode : f.started.errcode = 0#4 := rfl
@[simp] theorem Status.completed_busy : f.completed.busy = false := rfl
@[simp] theorem Status.completed_done : f.completed.done = true := rfl
@[simp] theorem Status.completed_wbusy : f.completed.wbusy = f.wbusy := rfl
@[simp] theorem Status.completed_errcode : f.completed.errcode = f.errcode := rfl
@[simp] theorem Status.raised_busy : (f.raised e).busy = f.busy := rfl
@[simp] theorem Status.raised_done : (f.raised e).done = f.done := rfl
@[simp] theorem Status.raised_wbusy : (f.raised e).wbusy = f.wbusy := rfl
@[simp] theorem Status.raised_errcode : (f.raised e).errcode = e.code := rfl
@[simp] theorem Status.lostWrite_busy : f.lostWrite.busy = f.busy := rfl
@[simp] theorem Status.lostWrite_done : f.lostWrite.done = f.done := rfl
@[simp] theorem Status.lostWrite_wbusy : f.lostWrite.wbusy = true := rfl
@[simp] theorem Status.lostWrite_errcode : f.lostWrite.errcode = f.errcode := rfl
@[simp] theorem Status.written_busy : (f.written w).busy = f.busy := rfl
@[simp] theorem Status.written_done : (f.written w).done = (f.done && !w.getLsbD 1) := rfl
@[simp] theorem Status.written_wbusy : (f.written w).wbusy = (f.wbusy && !w.getLsbD 2) := rfl
@[simp] theorem Status.written_errcode : (f.written w).errcode = f.errcode := rfl

@[simp] theorem State.setOlen_params : (s.setOlen n).params = s.params := rfl
@[simp] theorem State.setOlen_ctrl : (s.setOlen n).ctrl = s.ctrl := rfl
@[simp] theorem State.setOlen_rounds : (s.setOlen n).rounds = s.rounds := rfl
@[simp] theorem State.setOlen_status : (s.setOlen n).status = s.status := rfl
@[simp] theorem State.setOlen_ilen : (s.setOlen n).ilen = s.ilen := rfl
@[simp] theorem State.setOlen_olen : (s.setOlen n).olen = BitVec.ofNat 32 n := rfl
@[simp] theorem State.setOlen_key : (s.setOlen n).key = s.key := rfl
@[simp] theorem State.setOlen_din : (s.setOlen n).din = s.din := rfl
@[simp] theorem State.setOlen_dout : (s.setOlen n).dout = s.dout := rfl
@[simp] theorem State.setOlen_cmdreg : (s.setOlen n).cmdreg = s.cmdreg := rfl
@[simp] theorem State.setOlen_ibuf : (s.setOlen n).ibuf = s.ibuf := rfl
@[simp] theorem State.setOlen_obuf : (s.setOlen n).obuf = s.obuf := rfl
@[simp] theorem State.setOlen_draw : (s.setOlen n).draw = s.draw := rfl
@[simp] theorem State.setOlen_schedule : (s.setOlen n).schedule = s.schedule := rfl
@[simp] theorem State.setOlen_answer : (s.setOlen n).answer = s.answer := rfl

@[simp] theorem State.setDout_params : (s.setDout b).params = s.params := rfl
@[simp] theorem State.setDout_ctrl : (s.setDout b).ctrl = s.ctrl := rfl
@[simp] theorem State.setDout_rounds : (s.setDout b).rounds = s.rounds := rfl
@[simp] theorem State.setDout_status : (s.setDout b).status = s.status := rfl
@[simp] theorem State.setDout_ilen : (s.setDout b).ilen = s.ilen := rfl
@[simp] theorem State.setDout_olen : (s.setDout b).olen = s.olen := rfl
@[simp] theorem State.setDout_key : (s.setDout b).key = s.key := rfl
@[simp] theorem State.setDout_din : (s.setDout b).din = s.din := rfl
@[simp] theorem State.setDout_dout : (s.setDout b).dout = b := rfl
@[simp] theorem State.setDout_cmdreg : (s.setDout b).cmdreg = s.cmdreg := rfl
@[simp] theorem State.setDout_ibuf : (s.setDout b).ibuf = s.ibuf := rfl
@[simp] theorem State.setDout_obuf : (s.setDout b).obuf = s.obuf := rfl
@[simp] theorem State.setDout_draw : (s.setDout b).draw = s.draw := rfl
@[simp] theorem State.setDout_schedule : (s.setDout b).schedule = s.schedule := rfl
@[simp] theorem State.setDout_answer : (s.setDout b).answer = s.answer := rfl

@[simp] theorem State.setSchedule_params : (s.setSchedule es).params = s.params := rfl
@[simp] theorem State.setSchedule_ctrl : (s.setSchedule es).ctrl = s.ctrl := rfl
@[simp] theorem State.setSchedule_rounds : (s.setSchedule es).rounds = s.rounds := rfl
@[simp] theorem State.setSchedule_status : (s.setSchedule es).status = s.status := rfl
@[simp] theorem State.setSchedule_ilen : (s.setSchedule es).ilen = s.ilen := rfl
@[simp] theorem State.setSchedule_olen : (s.setSchedule es).olen = s.olen := rfl
@[simp] theorem State.setSchedule_key : (s.setSchedule es).key = s.key := rfl
@[simp] theorem State.setSchedule_din : (s.setSchedule es).din = s.din := rfl
@[simp] theorem State.setSchedule_dout : (s.setSchedule es).dout = s.dout := rfl
@[simp] theorem State.setSchedule_cmdreg : (s.setSchedule es).cmdreg = s.cmdreg := rfl
@[simp] theorem State.setSchedule_ibuf : (s.setSchedule es).ibuf = s.ibuf := rfl
@[simp] theorem State.setSchedule_obuf : (s.setSchedule es).obuf = s.obuf := rfl
@[simp] theorem State.setSchedule_draw : (s.setSchedule es).draw = s.draw := rfl
@[simp] theorem State.setSchedule_schedule : (s.setSchedule es).schedule = es := rfl
@[simp] theorem State.setSchedule_answer : (s.setSchedule es).answer = s.answer := rfl

@[simp] theorem startCommand_params : (startCommand w s).params = s.params := rfl
@[simp] theorem startCommand_ctrl : (startCommand w s).ctrl = s.ctrl := rfl
@[simp] theorem startCommand_rounds : (startCommand w s).rounds = s.rounds := rfl
@[simp] theorem startCommand_status : (startCommand w s).status = s.status.started := rfl
@[simp] theorem startCommand_ilen : (startCommand w s).ilen = s.ilen := rfl
@[simp] theorem startCommand_olen : (startCommand w s).olen = s.olen := rfl
@[simp] theorem startCommand_key : (startCommand w s).key = s.key := rfl
@[simp] theorem startCommand_din : (startCommand w s).din = s.din := rfl
@[simp] theorem startCommand_dout : (startCommand w s).dout = s.dout := rfl
@[simp] theorem startCommand_cmdreg : (startCommand w s).cmdreg = w := rfl
@[simp] theorem startCommand_ibuf : (startCommand w s).ibuf = s.ibuf := rfl
@[simp] theorem startCommand_obuf : (startCommand w s).obuf = s.obuf := rfl
@[simp] theorem startCommand_draw : (startCommand w s).draw = s.draw := rfl
@[simp] theorem startCommand_schedule : (startCommand w s).schedule = s.schedule := rfl
@[simp] theorem startCommand_answer : (startCommand w s).answer = s.answer := rfl

@[simp] theorem resetEvent_params : (resetEvent s).params = s.params := rfl
@[simp] theorem resetEvent_status :
    (resetEvent s).status = { busy := false, done := false, wbusy := false, errcode := 0#4 } := rfl
@[simp] theorem resetEvent_olen : (resetEvent s).olen = 0#32 := rfl
@[simp] theorem resetEvent_ibuf : (resetEvent s).ibuf = [] := rfl
@[simp] theorem resetEvent_obuf : (resetEvent s).obuf = [] := rfl
@[simp] theorem resetEvent_schedule : (resetEvent s).schedule = s.schedule := rfl
@[simp] theorem resetEvent_draw : (resetEvent s).draw = s.draw + 1 := rfl

end Sys2Proof.Machine
end

