-- ==== Sys2Proof/Laws/Memory.lean ====
section
/-! SUPPORT. The laws of a buffer: a store reads back, leaves every other index alone, and keeps the canonical form and
the capacity; and what that says of IBUF and OBUF through the model's read of one byte. -/

namespace Sys2Proof.Machine

@[simp] theorem Memory.lookup_nil (a : Nat) : Memory.lookup [] a = none := rfl

theorem Memory.lookup_store_self (m : Memory) (a : Nat) (v : Byte) : (m.store a v).lookup a = some v := by
  induction m with
  | nil => simp [Memory.store, Memory.lookup]
  | cons c rest ih =>
    rcases Nat.lt_trichotomy a c.1 with h | h | h
    · simp [Memory.store, Memory.lookup, h]
    · simp [Memory.store, Memory.lookup, h]
    · have h1 : ¬ a < c.1 := by omega
      have h2 : a ≠ c.1 := by omega
      simpa [Memory.store, Memory.lookup, h1, h2] using ih

theorem Memory.lookup_store_ne (m : Memory) {a b : Nat} (v : Byte) (h : b ≠ a) :
    (m.store a v).lookup b = m.lookup b := by
  induction m with
  | nil => simp [Memory.store, Memory.lookup, h]
  | cons c rest ih =>
    rcases Nat.lt_trichotomy a c.1 with h1 | h1 | h1
    · simp [Memory.store, Memory.lookup, h1, h]
    · have h2 : b ≠ c.1 := by omega
      simp [Memory.store, Memory.lookup, h1, h2]
    · have h2 : ¬ a < c.1 := by omega
      have h3 : a ≠ c.1 := by omega
      simp only [Memory.store, h2, h3, if_false, Memory.lookup, ih]

theorem Memory.mem_store (m : Memory) {a : Nat} {v : Byte} {c : Host.Cell} (h : c ∈ m.store a v) :
    c = (a, v) ∨ c ∈ m := by
  induction m with
  | nil => exact .inl (by simpa [Memory.store] using h)
  | cons d rest ih =>
    simp only [Memory.store] at h
    split at h
    · exact (List.mem_cons.mp h)
    · split at h
      · rcases List.mem_cons.mp h with h | h
        · exact .inl h
        · exact .inr (List.mem_cons_of_mem _ h)
      · rcases List.mem_cons.mp h with h | h
        · exact .inr (h ▸ List.mem_cons_self)
        · exact (ih h).imp_right (List.mem_cons_of_mem _)

theorem Memory.wf_store {m : Memory} (a : Nat) (v : Byte) (h : m.wf) : (m.store a v).wf := by
  induction m with
  | nil => simp [Memory.store]
  | cons c rest ih =>
    obtain ⟨hc, hr⟩ := List.pairwise_cons.mp h
    simp only [Memory.store]
    split
    · rename_i h1
      refine List.pairwise_cons.mpr ⟨fun d hd => ?_, h⟩
      rcases List.mem_cons.mp hd with rfl | hd
      · exact h1
      · exact Nat.lt_trans h1 (hc d hd)
    · split
      · rename_i h1 h2
        exact List.pairwise_cons.mpr ⟨fun d hd => h2 ▸ hc d hd, hr⟩
      · rename_i h1 h2
        refine List.pairwise_cons.mpr ⟨fun d hd => ?_, ih hr⟩
        rcases Memory.mem_store rest hd with rfl | hd
        · exact Nat.lt_of_le_of_ne (Nat.not_lt.mp h1) (Ne.symm h2)
        · exact hc d hd

theorem Memory.below_store {m : Memory} {n a : Nat} (v : Byte) (h : m.below n) (ha : a < n) :
    (m.store a v).below n := fun c hc => by
  rcases Memory.mem_store m hc with rfl | hc
  · exact ha
  · exact h c hc

theorem Memory.wf_storeBytes {m : Memory} (a : Nat) (v : Bytes) (h : m.wf) : (m.storeBytes a v).wf := by
  induction v generalizing m a with
  | nil => exact h
  | cons b rest ih => exact ih (a + 1) (Memory.wf_store a b h)

theorem Memory.below_storeBytes {m : Memory} {n a : Nat} {v : Bytes} (h : m.below n) (ha : a + v.length ≤ n) :
    (m.storeBytes a v).below n := by
  induction v generalizing m a with
  | nil => exact h
  | cons b rest ih =>
    simp only [List.length_cons] at ha
    exact ih (Memory.below_store b h (by omega)) (by omega)

/-- A stored string reads back byte by byte, and every other index reads as before. -/
theorem Memory.lookup_storeBytes (m : Memory) (a : Nat) (v : Bytes) (i : Nat) :
    (m.storeBytes a v).lookup i =
      if a ≤ i ∧ i < a + v.length then some (v.getD (i - a) 0#8) else m.lookup i := by
  induction v generalizing m a with
  | nil =>
    rw [if_neg (by simp)]; rfl
  | cons b rest ih =>
    simp only [Memory.storeBytes, ih, List.length_cons]
    rcases Nat.lt_trichotomy i a with h | h | h
    · rw [if_neg (by omega), if_neg (by omega), Memory.lookup_store_ne _ _ (by omega)]
    · subst h
      rw [if_neg (by omega), if_pos (by omega), Memory.lookup_store_self]
      simp
    · obtain ⟨j, rfl⟩ : ∃ j, i = a + 1 + j := ⟨i - (a + 1), by omega⟩
      by_cases h2 : j < rest.length
      · rw [if_pos (by omega), if_pos (by omega)]
        have e1 : a + 1 + j - (a + 1) = j := by omega
        have e2 : a + 1 + j - a = j + 1 := by omega
        simp [e1, e2]
      · rw [if_neg (by omega), if_neg (by omega), Memory.lookup_store_ne _ _ (by omega)]

/-! IBUF and OBUF. -/

theorem State.ibufByte_congr {s t : State} (h : t.ibuf = s.ibuf) (hd : t.draw = s.draw) (i : Nat) :
    t.ibufByte i = s.ibufByte i := by simp [State.ibufByte, h, hd]

theorem State.obufByte_congr {s t : State} (h : t.obuf = s.obuf) (hd : t.draw = s.draw) (i : Nat) :
    t.obufByte i = s.obufByte i := by simp [State.obufByte, h, hd]

theorem State.ibufBytes_congr {s t : State} (h : t.ibuf = s.ibuf) (hd : t.draw = s.draw) (a n : Nat) :
    t.ibufBytes a n = s.ibufBytes a n := by simp [State.ibufBytes, State.ibufByte_congr h hd]

theorem State.obufBytes_congr {s t : State} (h : t.obuf = s.obuf) (hd : t.draw = s.draw) (a n : Nat) :
    t.obufBytes a n = s.obufBytes a n := by simp [State.obufBytes, State.obufByte_congr h hd]

@[simp] theorem State.length_ibufBytes (s : State) (a n : Nat) : (s.ibufBytes a n).length = n := by
  simp [State.ibufBytes]

@[simp] theorem State.length_obufBytes (s : State) (a n : Nat) : (s.obufBytes a n).length = n := by
  simp [State.obufBytes]

/-- The bytes of OBUF after a string has been stored into it. -/
theorem State.obufByte_storeBytes (s : State) (a : Nat) (v : Bytes) (i : Nat) :
    State.obufByte { s with obuf := s.obuf.storeBytes a v } i =
      if a ≤ i ∧ i < a + v.length then v.getD (i - a) 0#8 else s.obufByte i := by
  simp only [State.obufByte, Memory.lookup_storeBytes]
  split <;> simp

/-- The bytes of IBUF after a string has been stored into it. -/
theorem State.ibufByte_storeBytes (s : State) (a : Nat) (v : Bytes) (i : Nat) :
    State.ibufByte { s with ibuf := s.ibuf.storeBytes a v } i =
      if a ≤ i ∧ i < a + v.length then v.getD (i - a) 0#8 else s.ibufByte i := by
  simp only [State.ibufByte, Memory.lookup_storeBytes]
  split <;> simp

/-- A buffer whose bytes from index 0 are a string reads back as that string. -/
theorem State.obufBytes_eq_of_byte {s : State} {v : Bytes} (h : ∀ i, i < v.length → s.obufByte i = v.getD i 0#8) :
    s.obufBytes 0 v.length = v := by
  apply List.ext_getElem (by simp)
  intro i h1 h2
  simp only [State.length_obufBytes] at h1
  simp [State.obufBytes, h i h1, h1]

end Sys2Proof.Machine
end

