-- ==== Sys2Proof/Laws/Ops.lean ====
section
/-! SUPPORT. One lemma for each shared operation that says everything it can do; a proof about a command cites these and
unfolds none of them. -/

namespace Sys2Proof.Machine

/-- A chain answers a next value exactly when both parts do. -/
theorem andThen_eq_next {α β : Type} {o : Host.Outcome α Fault Refusal} {k : α → Host.Outcome β Fault Refusal} {y : β} :
    andThen o k = .next y ↔ ∃ x, o = .next x ∧ k x = .next y := by
  cases o <;> simp [andThen]

@[simp] theorem andThen_next {α β : Type} (x : α) (k : α → Host.Outcome β Fault Refusal) :
    andThen (.next x) k = k x := rfl

/-- MemRead answers the bytes exactly when they lie in the buffer. -/
theorem readIbuf_eq_next {s : State} {a n : Nat} {d : Bytes} :
    readIbuf s a n = .next d ↔ a + n ≤ s.params.msgBytes ∧ d = s.ibufBytes a n := by
  unfold readIbuf; split <;> simp_all [eq_comm]

theorem readIbuf_of_le {s : State} {a n : Nat} (h : a + n ≤ s.params.msgBytes) :
    readIbuf s a n = .next (s.ibufBytes a n) := by simp [readIbuf, h]

/-- MemWrite answers the state with the bytes stored exactly when they lie in the buffer. -/
theorem writeObuf_eq_next {s t : State} {a : Nat} {v : Bytes} :
    writeObuf s a v = .next t ↔
      a + v.length ≤ s.params.msgBytes ∧ t = { s with obuf := s.obuf.storeBytes a v } := by
  unfold writeObuf; split <;> simp_all [eq_comm]

theorem writeObuf_of_le {s : State} {a : Nat} {v : Bytes} (h : a + v.length ≤ s.params.msgBytes) :
    writeObuf s a v = .next { s with obuf := s.obuf.storeBytes a v } := by simp [writeObuf, h]

/-- The end of a command changes BUSY and DONE only. -/
theorem complete_eq_next {s t : State} : complete s = .next t ↔ t = { s with status := s.status.completed } := by
  simp [complete, eq_comm]

/-- `raise e` changes BUSY, DONE and ERRCODE only. -/
theorem raiseError_eq_next {e : ErrorKind} {s t : State} :
    raiseError e s = .next t ↔ t = { s with status := (s.status.raised e).completed } := by
  simp [raiseError, complete, eq_comm]

/-- A failing message command changes OLEN, BUSY, DONE and ERRCODE only. -/
theorem failMessage_eq_next {e : ErrorKind} {s t : State} :
    failMessage e s = .next t ↔ t = { s with olen := 0#32, status := (s.status.raised e).completed } := by
  simp [failMessage, raiseError_eq_next, State.setOlen]

/-- A succeeding message command changes OBUF, OLEN, BUSY and DONE only, and its result fits. -/
theorem finishMessage_eq_next {s t : State} {v : Bytes} :
    finishMessage s v = .next t ↔ v.length ≤ s.params.msgBytes ∧
      t = { s with obuf := s.obuf.storeBytes 0 v, olen := BitVec.ofNat 32 v.length, status := s.status.completed } := by
  simp only [finishMessage, andThen_eq_next, writeObuf_eq_next, complete_eq_next, Nat.zero_add]
  constructor
  · rintro ⟨x, ⟨h, rfl⟩, rfl⟩; exact ⟨h, rfl⟩
  · rintro ⟨h, rfl⟩; exact ⟨_, ⟨h, rfl⟩, rfl⟩

theorem finishMessage_of_le {s : State} {v : Bytes} (h : v.length ≤ s.params.msgBytes) :
    finishMessage s v = .next { s with
      obuf := s.obuf.storeBytes 0 v, olen := BitVec.ofNat 32 v.length, status := s.status.completed } :=
  finishMessage_eq_next.mpr ⟨h, rfl⟩

/-- The busy lock has two outcomes: a lost write while busy, the write itself while idle. -/
theorem locked_cases (s : State) (write : State → State) :
    (s.status.busy = true ∧ locked s write = { s with status := s.status.lostWrite }) ∨
    (s.status.busy = false ∧ locked s write = write s) := by
  cases h : s.status.busy <;> simp [locked, h]

theorem locked_of_busy {s : State} (h : s.status.busy = true) (write : State → State) :
    locked s write = { s with status := s.status.lostWrite } := by simp [locked, h]

theorem locked_of_idle {s : State} (h : s.status.busy = false) (write : State → State) :
    locked s write = write s := by simp [locked, h]

/-- What an accepted write can do while the core is busy: change CTRL.IE, clear flags by STATUS, or be lost. -/
theorem writeWord_of_busy {s : State} (h : s.status.busy = true) (off : Nat) (w : Word) :
    s.writeWord off w = s ∨ s.writeWord off w = { s with status := s.status.lostWrite } ∨
    s.writeWord off w = { s with ctrl := { ie := w.getLsbD 0 } } ∨
    s.writeWord off w = { s with status := s.status.written w } := by
  unfold State.writeWord
  cases target s.params off with
  | reg r => cases r <;> simp [State.writeReg, locked_of_busy h]
  | ibufWord j => exact .inr (.inl (locked_of_busy h _))
  | obufWord j => exact .inl rfl
  | reserved => exact .inl rfl

/-- A transaction while the core is busy: its effect is one of the four of `writeWord_of_busy`. -/
theorem effectOf_of_busy {s : State} (h : s.status.busy = true) (t : Transaction) :
    s.effectOf t = s ∨ s.effectOf t = { s with status := s.status.lostWrite } ∨
    (∃ w : Word, s.effectOf t = { s with ctrl := { ie := w.getLsbD 0 } }) ∨
    (∃ w : Word, s.effectOf t = { s with status := s.status.written w }) := by
  cases t with
  | read offset size => exact .inl rfl
  | write offset size w =>
    simp only [State.effectOf]
    split
    · rcases writeWord_of_busy h offset.toNat w with h | h | h | h
      · exact .inl h
      · exact .inr (.inl h)
      · exact .inr (.inr (.inl ⟨w, h⟩))
      · exact .inr (.inr (.inr ⟨w, h⟩))
    · exact .inl rfl

/-- A read has no effect (20_memory.md R72). -/
@[simp] theorem effectOf_read (s : State) (offset : BitVec 14) (size : Nat) :
    s.effectOf (.read offset size) = s := rfl

/-- No write changes the parameters, DOUT, OLEN, OBUF, the draw, the schedule or the last answer; only a write can reach
the other fields. -/
theorem writeWord_frame (s : State) (off : Nat) (w : Word) :
    (s.writeWord off w).params = s.params ∧ (s.writeWord off w).dout = s.dout ∧
    (s.writeWord off w).olen = s.olen ∧ (s.writeWord off w).obuf = s.obuf ∧
    (s.writeWord off w).draw = s.draw ∧ (s.writeWord off w).schedule = s.schedule ∧
    (s.writeWord off w).answer = s.answer := by
  unfold State.writeWord
  cases target s.params off with
  | reg r => cases r <;> simp [State.writeReg, locked] <;> split <;> simp
  | ibufWord j => simp only [locked]; split <;> simp
  | obufWord j => simp
  | reserved => simp

theorem effectOf_frame (s : State) (t : Transaction) :
    (s.effectOf t).params = s.params ∧ (s.effectOf t).dout = s.dout ∧ (s.effectOf t).olen = s.olen ∧
    (s.effectOf t).obuf = s.obuf ∧ (s.effectOf t).draw = s.draw ∧ (s.effectOf t).schedule = s.schedule ∧
    (s.effectOf t).answer = s.answer := by
  cases t with
  | read offset size => simp
  | write offset size w =>
    simp only [State.effectOf]
    split
    · exact writeWord_frame s offset.toNat w
    · simp

/-- The schedule plays no part in a write: the two updates commute. -/
theorem writeWord_setSchedule (s : State) (es : List Event) (off : Nat) (w : Word) :
    (s.setSchedule es).writeWord off w = (s.writeWord off w).setSchedule es := by
  unfold State.writeWord
  rw [State.setSchedule_params]
  cases target s.params off with
  | reg r =>
    cases h : s.status.busy <;> cases r <;>
      simp [State.writeReg, locked, h, State.setSchedule, startCommand]
  | ibufWord j => cases h : s.status.busy <;> simp [locked, h, State.setSchedule]
  | obufWord j => rfl
  | reserved => rfl

theorem effectOf_setSchedule (s : State) (es : List Event) (t : Transaction) :
    (s.setSchedule es).effectOf t = (s.effectOf t).setSchedule es := by
  cases t with
  | read offset size => rfl
  | write offset size w =>
    simp only [State.effectOf]
    split
    · exact writeWord_setSchedule s es offset.toNat w
    · rfl

theorem answerTo_setSchedule (s : State) (es : List Event) (t : Transaction) :
    (s.setSchedule es).answerTo t = s.answerTo t := by
  cases t <;> rfl

/-! The step, one lemma per kind of event. -/

theorem step_of_host {s : State} {t : Transaction} {rest : List Event} (h : s.schedule = .host t :: rest) :
    step s = .next (transact t (s.setSchedule rest)) := by simp [step, h]

theorem step_of_reset {s : State} {rest : List Event} (h : s.schedule = .reset :: rest) :
    step s = .next (resetEvent (s.setSchedule rest)) := by simp [step, h]

theorem step_of_core {s : State} {rest : List Event} (h : s.schedule = .core :: rest) :
    step s = coreTurn (s.setSchedule rest) := by simp [step, h]

theorem step_of_nil {s : State} (h : s.schedule = []) : step s = coreTurn s := by simp [step, h]

/-- Every step is one of four: a transaction, a reset, the Core's turn from the schedule, the Core's turn after it. -/
theorem step_cases (s : State) :
    (∃ t rest, s.schedule = .host t :: rest ∧ step s = .next (transact t (s.setSchedule rest))) ∨
    (∃ rest, s.schedule = .reset :: rest ∧ step s = .next (resetEvent (s.setSchedule rest))) ∨
    (∃ rest, s.schedule = .core :: rest ∧ step s = coreTurn (s.setSchedule rest)) ∨
    (s.schedule = [] ∧ step s = coreTurn s) := by
  cases h : s.schedule with
  | nil => exact .inr (.inr (.inr ⟨rfl, step_of_nil h⟩))
  | cons e rest =>
    cases e with
    | host t => exact .inl ⟨t, rest, rfl, step_of_host h⟩
    | reset => exact .inr (.inl ⟨rest, rfl, step_of_reset h⟩)
    | core => exact .inr (.inr (.inl ⟨rest, rfl, step_of_core h⟩))

@[simp] theorem stepsTo_zero (s : State) : stepsTo 0 s = .next s := rfl

theorem stepsTo_succ (k : Nat) (s : State) : stepsTo (k + 1) s = andThen (step s) (stepsTo k) := rfl

theorem coreTurn_of_idle {s : State} (h : s.status.busy = false) : coreTurn s = .next s := by simp [coreTurn, h]

theorem coreTurn_of_busy {s : State} (h : s.status.busy = true) : coreTurn s = completionStep s := by
  simp [coreTurn, h]

end Sys2Proof.Machine
end

