-- ==== Sys2Proof/Laws/Codec.lean ====
section
/-! SUPPORT. Lengths of the byte strings the codecs make, and what reading a slice of one gives. -/

namespace Sys2Proof.Machine

@[simp] theorem length_unbe32 (w : Word) : (unbe32 w).length = 4 := rfl

@[simp] theorem length_blockBytes (b : Block) : (blockBytes b).length = 8 := rfl

theorem padCount_pos (n : Nat) : 1 ≤ padCount n := by unfold padCount; omega

theorem padCount_le (n : Nat) : padCount n ≤ 8 := by unfold padCount; omega

theorem length_padBytes (d : Bytes) : (padBytes d).length = d.length + padCount d.length := by
  simp [padBytes]

/-- A string shorter than a capacity that is a multiple of 8 still fits after padding (44_padding_codec.md R204). -/
theorem length_padBytes_le {d : Bytes} {capacity : Nat} (h8 : capacity % 8 = 0) (h : d.length < capacity) :
    (padBytes d).length ≤ capacity := by
  rw [length_padBytes]; unfold padCount; omega

theorem length_mapBlocks (f : Block → Block) (d : Bytes) : (mapBlocks f d).length = 8 * (d.length / 8) := by
  simp [mapBlocks, List.length_flatMap, Nat.mul_comm]

theorem length_ecbEncrypt (d : Bytes) (k : Key) (n : Nat) : (ecbEncrypt d k n).length = (padBytes d).length := by
  rw [ecbEncrypt, length_mapBlocks, length_padBytes]; unfold padCount; omega

theorem length_ecbDecryptBlocks {c : Bytes} (k : Key) (n : Nat) (h : c.length % 8 = 0) :
    (ecbDecryptBlocks c k n).length = c.length := by
  rw [ecbDecryptBlocks, length_mapBlocks]; omega

@[simp] theorem length_message (s : State) : s.message.length = s.messageLength := by simp [State.message]

theorem length_slice (d : Bytes) (a b : Nat) : (slice d a b).length = min (b - a) (d.length - a) := by
  simp [slice]

/-- A legal capacity is a multiple of 8 between 8 and 4096 (00_scope.md R6). -/
theorem params_wf {p : Params} (h : p.wf = true) :
    p.msgBytes % 8 = 0 ∧ 8 ≤ p.msgBytes ∧ p.msgBytes ≤ 4096 ∧ p.base % 0x4000 = 0 := by
  simpa [Params.wf, and_assoc] using h

end Sys2Proof.Machine
end

