-- ==== Sys2Proof/Laws/Host.lean ====
section
/-! SUPPORT. What WAIT does, whatever the number of its reads (30_encoding.md R97), and what the host's calls for a long
message do on an idle core (46_host_helpers.md R249): block by block, in any
order, they give EcbEncrypt of the message, or the decrypted blocks of the ciphertext, with 32 rounds. -/

namespace Sys2Proof.Machine

/-- An aligned write at a register's offset is that register's write (20_memory.md R62). -/
theorem effectOf_reg (s : State) (r : Reg) (w : Word) :
    s.effectOf (.write (BitVec.ofNat 14 r.offset) 4 w) = s.writeReg r w := by
  cases r <;> rfl

/-- A locked register written while idle: the write takes effect and is answered OKAY. -/
theorem transact_reg_of_idle {s : State} {r : Reg} {w : Word} {f : State → State} (hb : s.status.busy = false)
    (h : s.writeReg r w = locked s f) :
    transact (.write (BitVec.ofNat 14 r.offset) 4 w) s = { f s with answer := some { resp := .okay, rdata := none } } := by
  unfold transact
  rw [effectOf_reg, h, locked_of_idle hb]
  cases r <;> rfl

theorem perform_reg (r : Reg) (w : Word) (rest : List Stmt) (s : State) :
    perform (.wr (.reg r) w :: rest) s = perform rest (transact (.write (BitVec.ofNat 14 r.offset) 4 w) s) := rfl

/-! WAIT (30_encoding.md R97). -/

/-- The state with the port's traffic replaced: the last answer and the events to come. -/
def State.setTraffic (s : State) (a : Option Answer) (es : List Event) : State := { s with answer := a, schedule := es }

@[simp] theorem State.setTraffic_params (s : State) (a : Option Answer) (es : List Event) : (s.setTraffic a es).params = s.params := rfl
@[simp] theorem State.setTraffic_status (s : State) (a : Option Answer) (es : List Event) : (s.setTraffic a es).status = s.status := rfl
@[simp] theorem State.setTraffic_key (s : State) (a : Option Answer) (es : List Event) : (s.setTraffic a es).key = s.key := rfl
@[simp] theorem State.setTraffic_cmdreg (s : State) (a : Option Answer) (es : List Event) : (s.setTraffic a es).cmdreg = s.cmdreg := rfl
@[simp] theorem State.setTraffic_messageLength (s : State) (a : Option Answer) (es : List Event) :
    (s.setTraffic a es).messageLength = s.messageLength := rfl
@[simp] theorem State.setTraffic_roundCount (s : State) (a : Option Answer) (es : List Event) :
    (s.setTraffic a es).roundCount = s.roundCount := rfl
@[simp] theorem State.setTraffic_setOlen (s : State) (a : Option Answer) (es : List Event) (n : Nat) :
    (s.setTraffic a es).setOlen n = (s.setOlen n).setTraffic a es := rfl

/-- The same on an outcome. -/
def setTrafficOf (a : Option Answer) (es : List Event) (o : Host.Outcome State Fault Refusal) : Host.Outcome State Fault Refusal :=
  andThen o (fun t => .next (t.setTraffic a es))

theorem andThen_assoc {α β γ : Type} (o : Host.Outcome α Fault Refusal) (k : α → Host.Outcome β Fault Refusal)
    (l : β → Host.Outcome γ Fault Refusal) : andThen (andThen o k) l = andThen o (fun x => andThen (k x) l) := by
  cases o <;> rfl

theorem readIbuf_setTraffic (s : State) (a : Option Answer) (es : List Event) (x n : Nat) :
    readIbuf (s.setTraffic a es) x n = readIbuf s x n := rfl

theorem writeObuf_setTraffic (s : State) (a : Option Answer) (es : List Event) (x : Nat) (v : Bytes) :
    writeObuf (s.setTraffic a es) x v = setTrafficOf a es (writeObuf s x v) := by
  unfold writeObuf
  rw [State.setTraffic_params]
  split <;> rfl

theorem complete_setTraffic (s : State) (a : Option Answer) (es : List Event) : complete (s.setTraffic a es) = setTrafficOf a es (complete s) := rfl

theorem failMessage_setTraffic (e : ErrorKind) (s : State) (a : Option Answer) (es : List Event) :
    failMessage e (s.setTraffic a es) = setTrafficOf a es (failMessage e s) := rfl

theorem finishMessage_setTraffic (s : State) (a : Option Answer) (es : List Event) (v : Bytes) :
    finishMessage (s.setTraffic a es) v = setTrafficOf a es (finishMessage s v) := by
  simp [finishMessage, writeObuf_setTraffic, setTrafficOf, andThen_assoc]
  rfl

/-- The traffic plays no part in a command: the two updates commute. -/
theorem exec_setTraffic (i : Instr) (s : State) (a : Option Answer) (es : List Event) :
    exec i (s.setTraffic a es) = setTrafficOf a es (exec i s) := by
  cases i with
  | encBlock => rfl
  | decBlock => rfl
  | ecbEnc =>
    simp only [exec, execEcbEnc, readIbuf_setTraffic, finishMessage_setTraffic, failMessage_setTraffic,
      State.setTraffic_params, State.setTraffic_key, State.setTraffic_messageLength, State.setTraffic_roundCount]
    split
    · rfl
    · exact (andThen_assoc _ _ _).symm
  | ecbDec =>
    simp only [exec, execEcbDec, readIbuf_setTraffic, writeObuf_setTraffic, failMessage_setTraffic,
      State.setTraffic_params, State.setTraffic_key, State.setTraffic_messageLength, State.setTraffic_roundCount]
    split_ifs <;> try rfl
    simp only [setTrafficOf, andThen_assoc, andThen_next]
    congr 1; funext c; congr 1; funext t
    cases unpadBytes (ecbDecryptBlocks c s.key s.roundCount) <;> rfl
  | pad =>
    simp only [exec, execPad, readIbuf_setTraffic, finishMessage_setTraffic, failMessage_setTraffic,
      State.setTraffic_params, State.setTraffic_messageLength]
    split
    · rfl
    · exact (andThen_assoc _ _ _).symm
  | unpad =>
    simp only [exec, execUnpad, readIbuf_setTraffic, finishMessage_setTraffic, failMessage_setTraffic,
      State.setTraffic_params, State.setTraffic_messageLength]
    split
    · rfl
    · simp only [setTrafficOf, andThen_assoc]
      congr 1; funext d
      cases unpadBytes d <;> rfl

theorem coreTurn_setTraffic (s : State) (a : Option Answer) (es : List Event) :
    coreTurn (s.setTraffic a es) = setTrafficOf a es (coreTurn s) := by
  unfold coreTurn completionStep
  rw [State.setTraffic_status, State.setTraffic_cmdreg]
  cases s.status.busy with
  | false => rfl
  | true =>
    cases decode s.cmdreg with
    | ok i => exact exec_setTraffic i s a es
    | error _ => rfl

/-- The Core's turn leaves the traffic as it is. -/
theorem coreTurn_traffic {s u : State} (h : coreTurn s = .next u) : u.answer = s.answer ∧ u.schedule = s.schedule := by
  have hs := coreTurn_setTraffic s s.answer s.schedule
  rw [show s.setTraffic s.answer s.schedule = s from rfl, h] at hs
  have hu : u = u.setTraffic s.answer s.schedule := by simpa [setTrafficOf] using hs
  exact ⟨by rw [hu]; rfl, by rw [hu]; rfl⟩

/-- The state after `RD STATUS`: the answer alone changes (20_memory.md R72). -/
def State.statusRead (s : State) : State :=
  s.setTraffic (some { resp := .okay, rdata := some s.status.word }) s.schedule

@[simp] theorem State.statusRead_status (s : State) : s.statusRead.status = s.status := rfl

/-- `RD STATUS` always answers, and bit 0 of the value is BUSY (10_state.md R26). -/
@[simp] theorem perform_readStatus (s : State) : perform [.rd (.reg .status)] s = some s.statusRead := rfl

@[simp] theorem State.statusRead_readBusy (s : State) : s.statusRead.readBusy = some s.status.busy := by
  show some (s.status.word.getLsbD 0) = _
  cases h : s.status.busy <;> rw [Status.word, h, BitVec.getLsbD_append] <;> rfl

/-- Reading STATUS first changes nothing about the Core's turn. -/
theorem coreTurn_statusRead {s u : State} (h : coreTurn s = .next u) :
    coreTurn s.statusRead = .next (u.setTraffic s.statusRead.answer s.schedule) := by
  rw [State.statusRead, coreTurn_setTraffic, h]; rfl

/-- WAIT on an idle core is one read, whatever the turns. -/
theorem performWait_of_idle {s : State} (h : s.status.busy = false) (turns : List Bool) :
    performWait turns s = some s.statusRead := by
  have hpoll : ∀ turn, poll turn s = some s.statusRead := by
    intro turn
    cases turn <;> simp [poll, coreTurn_of_idle h]
  cases turns <;> simp [performWait, hpoll, h]

/-- 30_encoding.md R97: the end state of a WAIT does not depend on the number of its reads. On a busy core it is the
state the completion step leaves, STATUS read once. -/
theorem performWait_of_busy {s u : State} (hb : s.status.busy = true) (hturn : coreTurn s = .next u)
    (hu : u.status.busy = false) (turns : List Bool) : performWait turns s = some u.statusRead := by
  induction turns generalizing s u with
  | nil => simp [performWait, poll, hturn, hu]
  | cons turn rest ih =>
    cases turn with
    | true => simp [performWait, poll, hturn, hu]
    | false =>
      have hend : (u.setTraffic s.statusRead.answer s.schedule).statusRead = u.statusRead := by
        rw [← (coreTurn_traffic hturn).2]; rfl
      have := ih (s := s.statusRead) hb (coreTurn_statusRead hturn) hu
      rw [hend] at this
      simpa [performWait, poll, hb] using this

/-- The event of `RD STATUS`. -/
def statusReadEvent : Event := .host (.read (BitVec.ofNat 14 Reg.status.offset) 4)

theorem scriptEvents_waitStmts (rounds : Nat) :
    scriptEvents (waitStmts rounds) = some (List.replicate rounds statusReadEvent ++ [statusReadEvent]) := by
  rw [← List.replicate_succ']
  unfold waitStmts
  induction rounds + 1 with
  | zero => rfl
  | succ n ih => rw [List.replicate_succ, scriptEvents, ih]; rfl

/-- WAIT as steps: the schedule of `waitStmts rounds` with the completion step before its last read ends in the state of
the loop, `performWait`, for whatever turns. -/
theorem stepsTo_waitStmts {s u : State} (hb : s.status.busy = true) (hturn : coreTurn s = .next u)
    (hu : u.status.busy = false) (turns : List Bool) (rounds : Nat) :
    ∃ t, performWait turns s = some t ∧
      stepsTo (rounds + 2) (s.setSchedule (List.replicate rounds statusReadEvent ++ [.core, statusReadEvent])) =
        .next (t.setSchedule []) := by
  refine ⟨u.statusRead, performWait_of_busy hb hturn hu turns, ?_⟩
  induction rounds generalizing s u with
  | zero =>
    rw [stepsTo_succ, step_of_core rfl]
    show andThen (coreTurn (s.setTraffic s.answer [statusReadEvent])) _ = _
    rw [coreTurn_setTraffic, hturn]
    rfl
  | succ n ih =>
    have := ih (s := s.statusRead) hb (coreTurn_statusRead hturn) hu
    rw [stepsTo_succ, step_of_host rfl]
    exact this

/-- The key and ROUNDS = 32 written to an idle core. -/
theorem perform_keyCall {s : State} {keyBytes : Bytes} (hb : s.status.busy = false) (hk : keyBytes.length = 16) :
    ∃ setup t, keyCall keyBytes = .ok setup ∧ perform setup s = some t ∧ t.status.busy = false ∧
      t.key = keyOfBytes keyBytes ∧ t.rounds = 32#8 := by
  let t : State := { s with key := keyOfBytes keyBytes, rounds := 32#8,
                            answer := some { resp := .okay, rdata := none } }
  have hperform : perform (setKeyStmts (keyOfBytes keyBytes) ++ [.wr (.reg .rounds) 32#32]) s = some t := by
    simp only [setKeyStmts, List.cons_append, List.nil_append, perform_reg]
    rw [transact_reg_of_idle (r := .key0) (f := fun t => { t with key := { t.key with k0 := _ } }) hb rfl,
      transact_reg_of_idle (r := .key1) (f := fun t => { t with key := { t.key with k1 := _ } }) (by exact hb) rfl,
      transact_reg_of_idle (r := .key2) (f := fun t => { t with key := { t.key with k2 := _ } }) (by exact hb) rfl,
      transact_reg_of_idle (r := .key3) (f := fun t => { t with key := { t.key with k3 := _ } }) (by exact hb) rfl,
      transact_reg_of_idle (r := .rounds) (f := fun t => { t with rounds := BitVec.extractLsb' 0 8 32#32 })
        (by exact hb) rfl]
    rfl
  exact ⟨_, t, by simp [keyCall, hk], hperform, hb, rfl, rfl⟩

/-- One block call on an idle core, for a command i whose meaning writes f of the block to DOUT, wherever the completion
step falls in its wait. -/
theorem performAndWait_blockCall (turns : List Bool) {i : Instr} {f : Block → Key → Nat → Block}
    (hexec : ∀ s : State, exec i s = complete (s.setDout (f s.din s.key s.roundCount)))
    (hdecode : decode (encode i) = .ok i) {s : State} {block : Bytes} (hb : s.status.busy = false)
    (hl : block.length = 8) :
    ∃ call t, blockCall i block = .ok call ∧ performAndWait turns call s = some t ∧ t.status.busy = false ∧
      t.key = s.key ∧ t.rounds = s.rounds ∧ blockCollect t = f (blockAt block 0) s.key s.rounds.toNat := by
  let b : Block := { v0 := be32 (slice block 0 4), v1 := be32 (slice block 4 8) }
  let u : State := { s with din := b, cmdreg := encode i, status := s.status.started,
                            answer := some { resp := .okay, rdata := none } }
  have hperform : perform [.wr (.reg .din0) b.v0, .wr (.reg .din1) b.v1, .wr (.reg .cmd) (encode i)] s = some u := by
    simp only [perform_reg]
    rw [transact_reg_of_idle (r := .din0) (f := fun t => { t with din := { t.din with v0 := _ } }) hb rfl,
      transact_reg_of_idle (r := .din1) (f := fun t => { t with din := { t.din with v1 := _ } }) (by exact hb) rfl,
      transact_reg_of_idle (r := .cmd) (f := startCommand _) (by exact hb) rfl]
    rfl
  have hturn : coreTurn u = .next { u with dout := f b s.key s.rounds.toNat, status := u.status.completed } := by
    rw [coreTurn_of_busy rfl, completionStep, show decode u.cmdreg = .ok i from hdecode]
    exact hexec u
  refine ⟨[.wr (.reg .din0) b.v0, .wr (.reg .din1) b.v1, .wr (.reg .cmd) (encode i)],
    { u with dout := f b s.key s.rounds.toNat, status := u.status.completed }.statusRead, ?_, ?_, rfl, rfl, rfl, rfl⟩
  · rw [blockCall, if_neg (by omega)]
  · simp only [performAndWait, hperform]
    exact performWait_of_busy rfl hturn rfl turns

theorem blockAt_slice (p : Bytes) (j : Nat) : blockAt (slice p (8 * j) (8 * j + 8)) 0 = blockAt p j := by
  have h : ∀ a b, a ≤ b → b ≤ 8 → slice (slice p (8 * j) (8 * j + 8)) a b = slice p (8 * j + a) (8 * j + b) := by
    intro a b hab hb
    simp only [slice, List.drop_take, List.take_take, List.drop_drop]
    congr 1; omega
  simp only [blockAt, Nat.mul_zero, Nat.zero_add]
  rw [h 0 4 (by omega) (by omega), h 4 8 (by omega) (by omega)]
  rfl

/-- The block calls made in the order given: each pair read is f of its block. -/
theorem performBlocks_blockCalls (turns : Nat → List Bool) {i : Instr} {f : Block → Key → Nat → Block}
    (hexec : ∀ s : State, exec i s = complete (s.setDout (f s.din s.key s.roundCount)))
    (hdecode : decode (encode i) = .ok i) {p : Bytes} (order : List Nat) :
    ∀ s : State, s.status.busy = false → (∀ j ∈ order, 8 * j + 8 ≤ p.length) →
      ∃ calls t, blockCalls i p order = .ok calls ∧ calls.length = order.length ∧ t.status.busy = false ∧
        performBlocks turns calls s = some (t, order.map (fun j => (j, f (blockAt p j) s.key s.rounds.toNat))) := by
  induction order with
  | nil => exact fun s hb _ => ⟨[], s, rfl, rfl, hb, rfl⟩
  | cons j rest ih =>
    intro s hb hlen
    have hl : (slice p (8 * j) (8 * j + 8)).length = 8 := by
      have := hlen j List.mem_cons_self
      rw [length_slice]; omega
    obtain ⟨call, t, hcall, hwait, htb, htk, htr, hread⟩ := performAndWait_blockCall (turns j) hexec hdecode hb hl
    obtain ⟨calls, u, hcalls, hlength, hub, hrest⟩ := ih t htb (fun j' h => hlen j' (List.mem_cons_of_mem _ h))
    refine ⟨(j, call) :: calls, u, by simp only [blockCalls, hcall, hcalls], by simp [hlength], hub, ?_⟩
    rw [blockAt_slice] at hread
    simp only [performBlocks, hwait, hrest, hread, htk, htr, List.map_cons]

theorem lookup_map_pair (g : Nat → Block) {order : List Nat} {j : Nat} (h : j ∈ order) :
    (order.map (fun j => (j, g j))).lookup j = some (g j) := by
  induction order with
  | nil => cases h
  | cons i rest ih =>
    by_cases hij : j = i
    · subst hij; simp
    · have hne : (j == i) = false := by simpa using hij
      simp only [List.map_cons, List.lookup, hne]
      exact ih ((List.mem_cons.mp h).resolve_left hij)

/-- Put in place by their indices, the blocks come out in ascending order, whatever order they were made in. -/
theorem assemble_of_perm (g : Nat → Block) {order : List Nat} {n : Nat} (h : order.Perm (List.range n)) :
    assemble n (order.map (fun j => (j, g j))) = (List.range n).flatMap (fun j => blockBytes (g j)) := by
  unfold assemble
  rw [List.flatMap_def, List.flatMap_def]
  congr 1
  apply List.map_congr_left
  intro j hj
  rw [lookup_map_pair g (h.symm.subset hj)]

/-- A long message without a split part, on an idle core, in any order of its blocks. -/
theorem performLong_longCall (turns : Nat → List Bool) {i : Instr} {f : Block → Key → Nat → Block}
    (hexec : ∀ s : State, exec i s = complete (s.setDout (f s.din s.key s.roundCount)))
    (hdecode : decode (encode i) = .ok i) {p keyBytes : Bytes} {order : List Nat} {s : State}
    (hb : s.status.busy = false) (hk : keyBytes.length = 16) (ho : order.Perm (List.range (p.length / 8))) :
    ∃ x, longCall i p keyBytes order none = .ok x ∧
      performLong turns x s = some (mapBlocks (fun b => f b (keyOfBytes keyBytes) 32) p) := by
  obtain ⟨setup, t, hsetup, hperform, htb, htk, htr⟩ := perform_keyCall hb hk
  have hlen : ∀ j ∈ order, 8 * j + 8 ≤ p.length := fun j hj => by
    have := List.mem_range.mp (ho.subset hj)
    omega
  obtain ⟨calls, u, hcalls, hlength, -, hblocks⟩ := performBlocks_blockCalls turns hexec hdecode order t htb hlen
  refine ⟨{ setup := setup, blocks := calls, last := none }, by simp only [longCall, hsetup, hcalls], ?_⟩
  have hn : calls.length = p.length / 8 := by rw [hlength, ho.length_eq, List.length_range]
  simp only [performLong, hperform, hblocks, htk, htr, hn]
  rw [assemble_of_perm _ ho]
  rfl

/-- 46_host_helpers.md R249: the per-block encryption of a message of any length gives EcbEncrypt with 32 rounds. -/
theorem performLong_longEncryptCalls (turns : Nat → List Bool) {d keyBytes : Bytes} {order : List Nat} {s : State} (hb : s.status.busy = false)
    (hk : keyBytes.length = 16) (ho : order.Perm (List.range ((padBytes d).length / 8))) :
    ∃ x, longEncryptCalls order d keyBytes = .ok x ∧
      performLong turns x s = some (ecbEncrypt d (keyOfBytes keyBytes) 32) :=
  performLong_longCall turns (f := encryptBlock) (fun _ => rfl) (by decide) hb hk ho

/-- 46_host_helpers.md R249: the per-block decryption of a ciphertext of any length gives its decrypted blocks. -/
theorem performLong_longDecryptCalls (turns : Nat → List Bool) {c keyBytes : Bytes} {order : List Nat} {s : State} (hb : s.status.busy = false)
    (hk : keyBytes.length = 16) (h8 : c.length % 8 = 0) (h0 : c.length ≠ 0)
    (ho : order.Perm (List.range (c.length / 8))) :
    ∃ x, longDecryptCalls order c keyBytes = .ok x ∧
      performLong turns x s = some (ecbDecryptBlocks c (keyOfBytes keyBytes) 32) := by
  obtain ⟨x, hx, hrun⟩ := performLong_longCall turns (i := .decBlock) (f := decryptBlock) (fun _ => rfl) (by decide) hb hk ho
  refine ⟨x, ?_, hrun⟩
  rw [longDecryptCalls, keyCall, if_neg (by omega)]
  exact (if_neg (by omega)).trans hx

/-- A key of a wrong length is reported first, whatever the ciphertext (log 17). -/
theorem longDecryptCalls_key {c keyBytes : Bytes} (order : List Nat) (hk : keyBytes.length ≠ 16) :
    longDecryptCalls order c keyBytes = .error .invalidKeyLength := by
  rw [longDecryptCalls, keyCall, if_pos hk]

/-- With a key of 16 bytes, a ciphertext that is empty or no whole number of blocks is InvalidCiphertextLength (log 17). -/
theorem longDecryptCalls_length {c keyBytes : Bytes} (order : List Nat) (hk : keyBytes.length = 16)
    (hc : c.length % 8 ≠ 0 ∨ c.length = 0) :
    longDecryptCalls order c keyBytes = .error .invalidCiphertextLength := by
  rw [longDecryptCalls, keyCall, if_neg (by omega)]
  exact if_pos hc

theorem padBytes_append {a b : Bytes} (h : a.length % 8 = 0) : padBytes (a ++ b) = a ++ padBytes b := by
  have hc : padCount (a ++ b).length = padCount b.length := by
    unfold padCount; rw [List.length_append]; omega
  unfold padBytes
  rw [hc, List.append_assoc]

theorem blockAt_append_left {a b : Bytes} {j : Nat} (h : 8 * j + 8 ≤ a.length) : blockAt (a ++ b) j = blockAt a j := by
  have hs : ∀ x y, y ≤ a.length → slice (a ++ b) x y = slice a x y := by
    intro x y hy
    simp only [slice]
    by_cases hx : x ≤ a.length
    · rw [List.drop_append_of_le_length hx, List.take_append_of_le_length (by rw [List.length_drop]; omega)]
    · rw [show y - x = 0 by omega]; simp
  simp only [blockAt]
  rw [hs _ _ (by omega), hs _ _ (by omega)]

theorem blockAt_append_right {a b : Bytes} {m j : Nat} (h : a.length = 8 * m) : blockAt (a ++ b) (m + j) = blockAt b j := by
  have hs : ∀ x y, slice (a ++ b) (8 * m + x) (8 * m + y) = slice b x y := by
    intro x y
    simp only [slice]
    rw [← h, List.drop_append]
    simp only [Nat.add_sub_cancel_left, Nat.add_sub_add_left]
    rw [List.drop_eq_nil_of_le (by omega), List.nil_append]
  have h0 : slice (a ++ b) (8 * (m + j)) (8 * (m + j) + 4) = slice b (8 * j) (8 * j + 4) := by
    rw [Nat.mul_add, Nat.add_assoc]; exact hs _ _
  have h4 : slice (a ++ b) (8 * (m + j) + 4) (8 * (m + j) + 8) = slice b (8 * j + 4) (8 * j + 8) := by
    rw [Nat.mul_add, Nat.add_assoc, Nat.add_assoc]; exact hs _ _
  unfold blockAt
  rw [h0, h4]

/-- The law behind the split form of 46_host_helpers.md R249: encrypted blocks, then EcbEncrypt of the last part. -/
theorem ecbEncrypt_append {a b : Bytes} (k : Key) (n : Nat) (h : a.length % 8 = 0) :
    ecbEncrypt (a ++ b) k n = mapBlocks (fun x => encryptBlock x k n) a ++ ecbEncrypt b k n := by
  have hm : a.length = 8 * (a.length / 8) := by omega
  unfold ecbEncrypt
  rw [padBytes_append h]
  unfold mapBlocks
  rw [show (a ++ padBytes b).length / 8 = a.length / 8 + (padBytes b).length / 8 by
      rw [List.length_append]; omega,
    List.range_add, List.flatMap_append]
  have hleft : ∀ j ∈ List.range (a.length / 8), blockBytes (encryptBlock (blockAt (a ++ padBytes b) j) k n) =
      blockBytes (encryptBlock (blockAt a j) k n) := fun j hj => by
    have := List.mem_range.mp hj
    rw [blockAt_append_left (by omega)]
  rw [List.flatMap_congr hleft, List.flatMap_map]
  simp only [blockAt_append_right hm]

end Sys2Proof.Machine
end

