-- ==== Sys2Proof/Laws/PerInstr.lean ====
section
/-! SUPPORT. Statements made per command, as syntax: the family EncodedWord says that the word of a command is valid
(30_encoding.md R92), and that its RSV is zero and its OP the row's. -/

namespace Sys2Proof.Laws.EncodedWord

def Statement (i : Instr) : Prop :=
  i.wf = true ∧ validWord (encode i) = true ∧ rsvField (encode i) = 0#28 ∧ opField (encode i) = opOf i

theorem encBlock : Statement .encBlock := by unfold Statement; decide
theorem decBlock : Statement .decBlock := by unfold Statement; decide
theorem ecbEnc : Statement .ecbEnc := by unfold Statement; decide
theorem ecbDec : Statement .ecbDec := by unfold Statement; decide
theorem pad : Statement .pad := by unfold Statement; decide
theorem unpad : Statement .unpad := by unfold Statement; decide

end Sys2Proof.Laws.EncodedWord
end

