-- ==== Sys2Proof/Tests/Slice0.lean ====
section
/-! SUPPORT. Tests. A theorem test_x compares one step, or one value, with what spec/ gives for it: a row of
95_test_vectors.md, or a sentence of a rule; no expected value comes from the model. A theorem wit_X shows a concrete
state and operands that meet the hypotheses of the obligation X, at the boundary of each of its clauses. -/

namespace Sys2Proof.Tests

open Sys2Proof.Machine

/-! ## States and observations -/

/-- The key K of 95_test_vectors.md. -/
def keyK : Key := { k0 := 0x00112233#32, k1 := 0x44556677#32, k2 := 0x8899AABB#32, k3 := 0xCCDDEEFF#32 }

/-- An idle machine right after reset, with a capacity of n bytes. -/
def idle (n : Nat) : State := State.resetWith { msgBytes := n, base := 0 }

/-- The same with a message loaded. -/
def holding (n : Nat) (d : Bytes) : State :=
  { idle n with ilen := BitVec.ofNat 32 d.length, ibuf := Memory.storeBytes [] 0 d }

/-- The same with the command word w started. -/
def running (s : State) (w : Word) : State := startCommand w s

/-- The machine with only STATUS set. -/
def withStatus (f : Status) : State := { idle 16 with status := f }

/-- What an observation shows of the next state; none when there is none. -/
def seen {α : Type} (o : Host.Outcome State Fault Refusal) (f : State → α) : Option α :=
  match o with
  | .next t => some (f t)
  | .fault _ => none
  | .refused _ => none

/-- STATUS, OLEN and the first n bytes of OBUF. -/
def results (n : Nat) (t : State) : Word × Nat × Bytes := (t.status.word, t.olen.toNat, t.obufBytes 0 n)

/-- DOUT and STATUS. -/
def dout (t : State) : Block × Word := (t.dout, t.status.word)

theorem exists_next_of_seen {α : Type} {o : Host.Outcome State Fault Refusal} {f : State → α} {x : α}
    (h : seen o f = some x) : ∃ t, o = .next t := by
  cases o with
  | next t => exact ⟨t, rfl⟩
  | fault _ => cases h
  | refused _ => cases h

theorem next_of_seen {o : Host.Outcome State Fault Refusal} {t : State} (h : seen o id = some t) : o = .next t := by
  cases o with
  | next x => exact congrArg _ (Option.some.inj h)
  | fault _ => cases h
  | refused _ => cases h

/-! ## Well-formedness: the smoke tests -/

/-- 30_encoding.md R92, R93: OP = 0x0, OP = 0x7, OP = 0xF, and RSV not zero are each refused. -/
theorem test_validWord_refuses :
    validWord 0x00000000#32 = false ∧ validWord 0x00000007#32 = false ∧ validWord 0x0000000F#32 = false ∧
      validWord 0x00000011#32 = false ∧ validWord 0x80000001#32 = false := by decide

/-- 30_encoding.md R91: the six words are accepted. -/
theorem test_validWord_accepts :
    [0x1#32, 0x2#32, 0x3#32, 0x4#32, 0x5#32, 0x6#32].all validWord = true := by decide

/-- 00_scope.md R6: MSG_BYTES no multiple of 8, below 8, above 4096, and BASE no multiple of 0x4000 are each refused. -/
theorem test_params_refuses :
    Params.wf { msgBytes := 12, base := 0 } = false ∧ Params.wf { msgBytes := 0, base := 0 } = false ∧
      Params.wf { msgBytes := 4104, base := 0 } = false ∧ Params.wf { msgBytes := 1024, base := 0x2000 } = false := by
  decide

/-- 00_scope.md R6: the two ends of the range are accepted. -/
theorem test_params_accepts :
    Params.wf { msgBytes := 8, base := 0x4000 } = true ∧ Params.wf { msgBytes := 4096, base := 0 } = true := by decide

/-! ## Decoding: the words written out bit by bit from "encoding" and "match" of the opcode map (30_encoding.md R91) -/

theorem test_decode_ENC_BLOCK : decode 0b00000000000000000000000000000001#32 = .ok .encBlock := by decide
theorem test_decode_DEC_BLOCK : decode 0b00000000000000000000000000000010#32 = .ok .decBlock := by decide
theorem test_decode_ECB_ENC : decode 0b00000000000000000000000000000011#32 = .ok .ecbEnc := by decide
theorem test_decode_ECB_DEC : decode 0b00000000000000000000000000000100#32 = .ok .ecbDec := by decide
theorem test_decode_PAD : decode 0b00000000000000000000000000000101#32 = .ok .pad := by decide
theorem test_decode_UNPAD : decode 0b00000000000000000000000000000110#32 = .ok .unpad := by decide

/-- 30_encoding.md R93; 95_test_vectors.md Q-S3 to Q-S6. -/
theorem test_decode_refuses :
    decode 0x00000000#32 = .error .reservedOp ∧ decode 0x00000007#32 = .error .reservedOp ∧
      decode 0x00000011#32 = .error .reservedBits ∧ decode 0xFFFFFFFF#32 = .error .reservedBits := by decide

theorem test_decodeTableWord :
    decodeTableWord 32 6 = some .unpad ∧ decodeTableWord 32 7 = none ∧ decodeTableWord 32 0x16 = none := by decide

/-! ## Datapath, rounds and block functions (95_test_vectors.md 2.1 to 2.3) -/

/-- W1 to W5. -/
theorem test_add_sub_xor :
    add32 0xFFFFFFFF#32 1#32 = 0#32 ∧ add32 0x89ABCDEF#32 0x9E3779B9#32 = 0x27E347A8#32 ∧
      sub32 0#32 1#32 = 0xFFFFFFFF#32 ∧ sub32 0xC0653A3E#32 0xBB4A9332#32 = 0x051AA70C#32 ∧
      xor32 0x9ACE0123#32 0x27E347A8#32 = 0xBD2D468B#32 := by decide

/-- W6 to W11. -/
theorem test_shifts :
    shl4 0xF0000001#32 = 0x10#32 ∧ shl4 0x89ABCDEF#32 = 0x9ABCDEF0#32 ∧ shr5 0x80000000#32 = 0x04000000#32 ∧
      shr5 0xFFFFFFFF#32 = 0x07FFFFFF#32 ∧ shr5 0x1F#32 = 0#32 ∧ shr5 0x89ABCDEF#32 = 0x044D5E6F#32 := by decide

/-- W12 to W14. -/
theorem test_muld :
    muld 0 = 0#32 ∧ muld 1 = 0x9E3779B9#32 ∧ muld 16 = 0xE3779B90#32 ∧ muld 32 = 0xC6EF3720#32 ∧
      muld 64 = 0x8DDE6E40#32 ∧ muld 255 = 0x99423F47#32 := by decide

/-- W15, W16. -/
theorem test_big_endian :
    be32 [0x48#8, 0x65#8, 0x6c#8, 0x6c#8] = 0x48656C6C#32 ∧
      unbe32 0xF10F02EF#32 = [0xf1#8, 0x0f#8, 0x02#8, 0xef#8] := by decide

/-- R1 to R4. -/
theorem test_roundDelta :
    roundDelta 0xFFFFFFFF#32 0x9E3779B9#32 0#32 0#32 = 0x663779B7#32 ∧
      roundDelta 0x01234567#32 0x9E3779B9#32 0x00112233#32 0x44556677#32 = 0xC9414721#32 ∧
      roundDelta 0x80000000#32 0#32 0xFFFFFFFF#32 0xFFFFFFFF#32 = 0x7C000000#32 ∧
      roundDelta 0x1F#32 0x61C88647#32 1#32 2#32 = 0x61C88795#32 := by decide

/-- R5, R6: v1's update uses the updated v0. -/
theorem test_encRound :
    encRound keyK { v := { v0 := 0x01234567#32, v1 := 0x89ABCDEF#32 }, s := 0#32 } =
      { v := { v0 := 0xF6B2C7D4#32, v1 := 0x3D6BB13A#32 }, s := 0x9E3779B9#32 } := by decide

/-- R7 to R9: v1 first, the decrement after both halves. -/
theorem test_decRound :
    decRound keyK { v := { v0 := 0x126C6B92#32, v1 := 0xC0653A3E#32 }, s := 0xC6EF3720#32 } =
      { v := { v0 := 0x389FF422#32, v1 := 0x051AA70C#32 }, s := 0x28B7BD67#32 } := by decide

/-- B1, the published TEA vector. -/
theorem test_encryptBlock_zero :
    encryptBlock { v0 := 0#32, v1 := 0#32 } { k0 := 0#32, k1 := 0#32, k2 := 0#32, k3 := 0#32 } 32 =
      { v0 := 0x41EA3A0A#32, v1 := 0x94BAA940#32 } := by decide +kernel

/-- D5: fewer rounds than the encryption had. -/
theorem test_decryptBlock_mismatch :
    decryptBlock { v0 := 0x126C6B92#32, v1 := 0xC0653A3E#32 } keyK 16 =
      { v0 := 0xB37B191F#32, v1 := 0xF44418CA#32 } := by decide +kernel

/-! ## Padding (95_test_vectors.md 2.4) -/

/-- Q1, Q3, Q5. -/
theorem test_pad_function :
    padBytes [] = [8#8, 8#8, 8#8, 8#8, 8#8, 8#8, 8#8, 8#8] ∧
      (padBytes [0x41#8, 0x42#8, 0x43#8, 0x44#8, 0x45#8, 0x46#8, 0x47#8, 0x48#8]).length = 16 ∧
      padBytes [0x31#8, 0x32#8, 0x33#8, 0x34#8, 0x35#8, 0x36#8, 0x37#8] =
        [0x31#8, 0x32#8, 0x33#8, 0x34#8, 0x35#8, 0x36#8, 0x37#8, 1#8] := by decide

/-- U2, U4, and U5 to U11, one for each check. -/
theorem test_unpad_function :
    unpadBytes [1#8] = some [] ∧ unpadBytes [0x41#8, 0x42#8, 3#8, 3#8, 3#8] = some [0x41#8, 0x42#8] ∧
      unpadBytes [] = none ∧ unpadBytes [0x41#8, 0#8] = none ∧ unpadBytes [0x41#8, 9#8] = none ∧
      unpadBytes [0x41#8, 0x42#8, 4#8] = none ∧ unpadBytes [0x41#8, 3#8, 2#8, 3#8] = none ∧
      unpadBytes [7#8, 8#8, 8#8, 8#8, 8#8, 8#8, 8#8, 8#8] = none := by decide

/-! ## The commands: at most two each, one completion step on a small state -/

/-- B2. -/
theorem test_ENC_BLOCK :
    seen (exec .encBlock { idle 8 with key := keyK, din := { v0 := 0x01234567#32, v1 := 0x89ABCDEF#32 } }) dout =
      some ({ v0 := 0x126C6B92#32, v1 := 0xC0653A3E#32 }, 0x2#32) := by decide +kernel

/-- N7: the largest round count. -/
theorem test_ENC_BLOCK_255_rounds :
    seen (exec .encBlock
      { idle 8 with key := keyK, rounds := 255#8, din := { v0 := 0x01234567#32, v1 := 0x89ABCDEF#32 } }) dout =
      some ({ v0 := 0x71450892#32, v1 := 0x333B9546#32 }, 0x2#32) := by decide +kernel

/-- D1. -/
theorem test_DEC_BLOCK :
    seen (exec .decBlock { idle 8 with key := keyK, din := { v0 := 0x126C6B92#32, v1 := 0xC0653A3E#32 } }) dout =
      some ({ v0 := 0x01234567#32, v1 := 0x89ABCDEF#32 }, 0x2#32) := by decide +kernel

/-- D7: a round-count mismatch is no error. -/
theorem test_DEC_BLOCK_mismatch :
    seen (exec .decBlock { idle 8 with key := keyK, din := { v0 := 0x7CF6C003#32, v1 := 0x2C4AF316#32 } }) dout =
      some ({ v0 := 0x81B1D5CA#32, v1 := 0xEEF1A2A0#32 }, 0x2#32) := by decide +kernel

/-- M2. -/
theorem test_ECB_ENC_hello :
    seen (exec .ecbEnc { holding 8 [0x48#8, 0x65#8, 0x6c#8, 0x6c#8, 0x6f#8] with key := keyK }) (results 8) =
      some (0x2#32, 8, [0xf1#8, 0x0f#8, 0x02#8, 0xef#8, 0x04#8, 0x40#8, 0x2e#8, 0xab#8]) := by decide

/-- M3: a whole block still gets a full pad block. -/
theorem test_ECB_ENC_full_block :
    seen (exec .ecbEnc { holding 16 [0x41#8, 0x42#8, 0x43#8, 0x44#8, 0x45#8, 0x46#8, 0x47#8, 0x48#8] with
      key := keyK }) (results 16) =
      some (0x2#32, 16, [0x08#8, 0x1c#8, 0x50#8, 0x05#8, 0xc7#8, 0x58#8, 0x7d#8, 0x31#8,
        0x83#8, 0x23#8, 0x44#8, 0x47#8, 0xe5#8, 0xd3#8, 0x1f#8, 0xc1#8]) := by decide

/-- S1: OLEN counts the unpadded bytes, OBUF holds the pad bytes too. -/
theorem test_ECB_DEC_hello :
    seen (exec .ecbDec { holding 8 [0xf1#8, 0x0f#8, 0x02#8, 0xef#8, 0x04#8, 0x40#8, 0x2e#8, 0xab#8] with
      key := keyK }) (results 8) =
      some (0x2#32, 5, [0x48#8, 0x65#8, 0x6c#8, 0x6c#8, 0x6f#8, 3#8, 3#8, 3#8]) := by decide +kernel

/-- S8: the wrong key; the decrypted block is left in OBUF. -/
theorem test_ECB_DEC_wrong_key :
    seen (exec .ecbDec (holding 8 [0xf1#8, 0x0f#8, 0x02#8, 0xef#8, 0x04#8, 0x40#8, 0x2e#8, 0xab#8])) (results 8) =
      some (0x202#32, 0, [0xc6#8, 0x98#8, 0x36#8, 0x6f#8, 0x27#8, 0xc7#8, 0xfe#8, 0xe1#8]) := by decide +kernel

/-- PC2. -/
theorem test_PAD_full_block :
    seen (exec .pad (holding 16 [0x41#8, 0x42#8, 0x43#8, 0x44#8, 0x45#8, 0x46#8, 0x47#8, 0x48#8])) (results 16) =
      some (0x2#32, 16, [0x41#8, 0x42#8, 0x43#8, 0x44#8, 0x45#8, 0x46#8, 0x47#8, 0x48#8,
        8#8, 8#8, 8#8, 8#8, 8#8, 8#8, 8#8, 8#8]) := by decide

/-- PC4: ILEN = MSG_BYTES. -/
theorem test_PAD_overflow :
    seen (exec .pad { idle 1024 with ilen := 1024#32, olen := 5#32 }) (fun t => (t.status.word, t.olen, t.obuf)) =
      some (0x402#32, 0#32, []) := by decide

/-- UC5. -/
theorem test_UNPAD :
    seen (exec .unpad (holding 8 [0x41#8, 0x42#8, 3#8, 3#8, 3#8])) (results 2) =
      some (0x2#32, 2, [0x41#8, 0x42#8]) := by decide

/-- UC4: the pad byte asks for more bytes than there are. -/
theorem test_UNPAD_bad :
    seen (exec .unpad (holding 8 [0x41#8, 0x42#8, 4#8])) (fun t => (t.status.word, t.olen, t.obuf)) =
      some (0x202#32, 0#32, []) := by decide

/-! ## The sequencer and the port (95_test_vectors.md 2.6, 2.7) -/

/-- Q-S1: STATUS and CMDREG after the CMD write. -/
theorem test_start :
    let t := (withStatus ⟨false, true, false, 0#4⟩).effectOf (.write 0x010#14 4 1#32)
    t.status.word = 0x1#32 ∧ t.cmdreg = 1#32 := by decide

/-- Q-S3 to Q-S6, run by `step` in the Core's turn. -/
theorem test_illegal_words :
    [0#32, 0x11#32, 7#32, 0xFFFFFFFF#32].map
      (fun w => seen (step ((running (idle 8) w).setSchedule [.core])) (fun t => t.status.word)) =
    List.replicate 4 (some 0x302#32) := by decide

/-- Q-S7: a lost write. -/
theorem test_lost_write :
    let t := (running (idle 8) 1#32).effectOf (.write 0x030#14 4 0xDEADBEEF#32)
    t.din.v0 = 0#32 ∧ t.status.word = 0x5#32 := by decide

/-- Q-S8: CMD is locked while busy. -/
theorem test_cmd_while_busy :
    let t := (running (idle 8) 1#32).effectOf (.write 0x010#14 4 2#32)
    t.cmdreg = 1#32 ∧ t.status.word = 0x5#32 := by decide

/-- Q-S9: results read 0 while busy. -/
theorem test_masked_reads :
    let s := { running (idle 8) 1#32 with dout := ⟨7#32, 7#32⟩, olen := 7#32, obuf := [(0, 7#8)] }
    s.readWord 0x038 = 0#32 ∧ s.readWord 0x01C = 0#32 ∧ s.readWord 0x2000 = 0#32 := by decide

/-- Q-S10: CTRL is not locked. -/
theorem test_ctrl_while_busy :
    ((running (idle 8) 1#32).effectOf (.write 0x008#14 4 1#32)).ctrl.ie = true := by decide

/-- Q-S11, Q-S12, Q-S13. -/
theorem test_status_writes :
    ((withStatus ⟨false, true, true, 0#4⟩).effectOf (.write 0x014#14 4 2#32)).status.word = 0x4#32 ∧
      ((withStatus ⟨false, true, false, 3#4⟩).effectOf (.write 0x014#14 4 0xFFFFFFFF#32)).status.word = 0x300#32 ∧
      ((withStatus ⟨false, true, true, 0#4⟩).effectOf (.write 0x010#14 4 1#32)).status.word = 0x5#32 := by decide

/-- Q-S14: the interrupt rises at once. -/
theorem test_irq_rises :
    let s := withStatus ⟨false, true, false, 0#4⟩
    s.irq = false ∧ (s.effectOf (.write 0x008#14 4 1#32)).irq = true := by decide

/-- T1, T2, T4, T5, T9, T10, T12, on the machine of the examples. -/
theorem test_port_reads :
    State.reset.answerTo (.read 0x000#14 4) = ⟨.okay, some 0x54454131#32⟩ ∧
      State.reset.answerTo (.read 0x004#14 4) = ⟨.okay, some 0x400#32⟩ ∧
      State.reset.answerTo (.read 0x010#14 4) = ⟨.okay, some 0#32⟩ ∧
      State.reset.answerTo (.read 0x040#14 4) = ⟨.okay, some 0#32⟩ ∧
      State.reset.answerTo (.read 0x1400#14 4) = ⟨.okay, some 0#32⟩ ∧
      State.reset.answerTo (.read 0x016#14 4) = ⟨.error, some 0#32⟩ ∧
      State.reset.answerTo (.read 0x018#14 2) = ⟨.error, some 0#32⟩ := by decide

/-- T6, T7, T8, T11: one write each, and what a read then returns. -/
theorem test_port_writes :
    State.readWord (State.reset.effectOf (.write 0x00C#14 4 0x1FF#32)) 0x00C = 0xFF#32 ∧
      State.readWord (State.reset.effectOf (.write 0x008#14 4 0xFFFFFFFF#32)) 0x008 = 1#32 ∧
      State.reset.effectOf (.write 0x2000#14 4 0x11111111#32) = State.reset ∧
      State.reset.answerTo (.write 0x019#14 4 0#32) = ⟨.error, none⟩ := by decide

/-- T13: the window is big-endian. -/
theorem test_ibuf_window :
    (State.reset.effectOf (.write 0x1000#14 4 0x48656C6C#32)).ibufBytes 0 4 = [0x48#8, 0x65#8, 0x6c#8, 0x6c#8] := by
  decide

/-- 20_memory.md R61: the two ends of the region, and one address on either side of it. -/
theorem test_route :
    route { msgBytes := 8, base := 0x4000 } 0x4000 = some 0#14 ∧
      route { msgBytes := 8, base := 0x4000 } 0x7FFC = some 0x3FFC#14 ∧
      route { msgBytes := 8, base := 0x4000 } 0x8000 = none ∧
      route { msgBytes := 8, base := 0x4000 } 0x3FFC = none := by decide

/-- `withFetchWord`: the very next step after reset runs the word (here ENC_BLOCK with the reset's zero key and block:
B1). -/
theorem test_withFetchWord :
    seen (step (State.reset.withFetchWord 32 1)) dout = some ({ v0 := 0x41EA3A0A#32, v1 := 0x94BAA940#32 }, 0x2#32) := by
  decide +kernel

/-! ## The host's software (95_test_vectors.md 2.8; program P2's encoding) -/

/-- The error of a host function, if it ended in one. -/
def errorOf {α : Type} (o : Except HostError α) : Option HostError :=
  match o with
  | .ok _ => none
  | .error e => some e

/-- The bytes of K. -/
def bytesK : Bytes :=
  [0x00#8, 0x11#8, 0x22#8, 0x33#8, 0x44#8, 0x55#8, 0x66#8, 0x77#8, 0x88#8, 0x99#8, 0xaa#8, 0xbb#8, 0xcc#8, 0xdd#8, 0xee#8,
    0xff#8]

/-- H3, H4. -/
theorem test_parseKey_accepts :
    parseKey "00112233445566778899AABBCCDDEEFF".toList = .ok bytesK ∧
      parseKey "  00112233445566778899aabbccddeeff\n".toList = .ok bytesK := by decide

/-- H1, H2, H5. -/
theorem test_parseKey_refuses :
    errorOf (parseKey (List.replicate 30 '0')) = some .invalidKeyFormat ∧
      errorOf (parseKey ('g' :: 'g' :: List.replicate 30 '0')) = some .invalidKeyFormat ∧
      errorOf (parseKey "0011 2233445566778899aabbccddeeff".toList) = some .invalidKeyFormat := by decide

/-- H6, H7, H8. -/
theorem test_isValidHex :
    isValidHex true "f10F02ef".toList = true ∧ isValidHex true "0x12".toList = false ∧
      isValidHex true [] = false ∧ isValidHex false [] = true := by decide

/-- P2's LOAD: the missing bytes of the last word are 0x00. -/
theorem test_load :
    (loadStmts [0x48#8, 0x65#8, 0x6c#8, 0x6c#8, 0x6f#8]).map Stmt.encode =
      [some (.write 0x018#14 4 5#32), some (.write 0x1000#14 4 0x48656C6C#32), some (.write 0x1004#14 4 0x6F000000#32)] := by
  decide

/-- 10_state.md R33: K's words. -/
theorem test_keyOfBytes : keyOfBytes bytesK = keyK := by decide

/-- Program P1, RUN ENC_BLOCK with the completion step before the second read of its WAIT: "RD STATUS = 0x00000001 while
busy, then 0x00000002", and the DOUT of B2. -/
theorem test_run_waits :
    let s := { idle 8 with key := keyK, din := { v0 := 0x01234567#32, v1 := 0x89ABCDEF#32 } }
    (poll false (running s 1)).map (fun t => (t.answer, t.status.busy)) =
        some (some ⟨.okay, some 0x1#32⟩, true) ∧
      (performRun [false, true] .encBlock s).map (fun t => (t.answer, t.dout)) =
        some (some ⟨.okay, some 0x2#32⟩, { v0 := 0x126C6B92#32, v1 := 0xC0653A3E#32 }) := by decide +kernel

/-- 46_host_helpers.md R244: "a ciphertext of 7 bytes gives `InvalidCiphertextLength`", and a key of 15 bytes
`InvalidKeyLength`. -/
theorem test_host_decrypt_errors :
    errorOf (hostDecrypt [false] [1#8, 2#8, 3#8, 4#8, 5#8, 6#8, 7#8] bytesK (idle 8)) = some .invalidCiphertextLength ∧
      errorOf (hostDecrypt [] [] (bytesK.drop 1) (idle 8)) = some .invalidKeyLength := by decide +kernel

/-- 46_host_helpers.md R249, the split form: "ABCDEFGHI" split after one block, on the smallest machine (M4). -/
theorem test_split_encrypt :
    (splitEncryptCalls 1 [0] [0x41#8, 0x42#8, 0x43#8, 0x44#8, 0x45#8, 0x46#8, 0x47#8, 0x48#8, 0x49#8] bytesK).map
      (fun x => performLong (fun _ => [false, true]) x (idle 8)) =
    .ok (some [0x08#8, 0x1c#8, 0x50#8, 0x05#8, 0xc7#8, 0x58#8, 0x7d#8, 0x31#8,
      0x58#8, 0xcc#8, 0x49#8, 0xe3#8, 0x44#8, 0x0c#8, 0xfe#8, 0xa0#8]) := by decide +kernel

/-- 46_host_helpers.md R249, the mirror: M3's ciphertext, its second block first, then the host-side Unpad (S7). -/
theorem test_long_decrypt :
    (longDecryptCalls [1, 0] [0x08#8, 0x1c#8, 0x50#8, 0x05#8, 0xc7#8, 0x58#8, 0x7d#8, 0x31#8,
      0x83#8, 0x23#8, 0x44#8, 0x47#8, 0xe5#8, 0xd3#8, 0x1f#8, 0xc1#8] bytesK).map
      (fun x => (performLong (fun _ => [false, true]) x (idle 8)).map longDecryptResult) =
    .ok (some (.ok [0x41#8, 0x42#8, 0x43#8, 0x44#8, 0x45#8, 0x46#8, 0x47#8, 0x48#8])) := by decide +kernel

/-! ## Witnesses -/

/-- A capacity's invariant after reset, in general: the two buffers are empty. -/
theorem idle_inv {n : Nat} (h : Params.wf { msgBytes := n, base := 0 } = true) : (idle n).Inv where
  params := h
  ibuf_wf := List.Pairwise.nil
  ibuf_below := by intro c hc; cases hc
  obuf_wf := List.Pairwise.nil
  obuf_below := by intro c hc; cases hc
  running := by intro hb; cases hb
  errcode_le := by show (0#4).toNat ≤ 4; decide
  olen_le := by show (0#32).toNat ≤ n; simp

theorem running_inv {s : State} (h : s.Inv) (w : Word) : (running s w).Inv where
  params := h.params
  ibuf_wf := h.ibuf_wf
  ibuf_below := h.ibuf_below
  obuf_wf := h.obuf_wf
  obuf_below := h.obuf_below
  running := fun _ => ⟨rfl, rfl⟩
  errcode_le := by show (0#4).toNat ≤ 4; decide
  olen_le := h.olen_le

theorem setSchedule_inv {s : State} (h : s.Inv) (es : List Event) : (s.setSchedule es).Inv :=
  ⟨h.params, h.ibuf_wf, h.ibuf_below, h.obuf_wf, h.obuf_below, h.running, h.errcode_le, h.olen_le⟩

theorem wit_OpcodeMapOfTable : (0 < 16 ∧ (0 = 0 ∨ 7 ≤ 0)) ∧ (7 < 16 ∧ 7 ≤ 7) ∧ (15 < 16 ∧ 7 ≤ 15) := by decide

/-- An idle core, and a running one with a command and with an illegal word. -/
theorem wit_ValidWordsDecodeExactly :
    (idle 8).status.busy = false ∧ (running (idle 8) 6#32).status.busy = true ∧
      decode (running (idle 8) 6#32).cmdreg = .ok .unpad ∧
      decode (running (idle 8) 7#32).cmdreg = .error .reservedOp := by decide

/-- One word for each of the three ways to be illegal. -/
theorem wit_IllegalWordChangesOnlyStatus :
    ((running (idle 8) 0x11#32).status.busy = true ∧ (running (idle 8) 0x11#32).cmdreg.toNat / 16 ≠ 0) ∧
      ((running (idle 8) 0#32).status.busy = true ∧ (running (idle 8) 0#32).cmdreg.toNat % 16 = 0) ∧
      ((running (idle 8) 7#32).status.busy = true ∧ 7 ≤ (running (idle 8) 7#32).cmdreg.toNat % 16) := by decide

theorem wit_EncBlockCompletes : ({ idle 8 with rounds := 0#8 } : State).rounds = 0#8 := rfl

theorem wit_DecBlockCompletes : ({ idle 8 with rounds := 0#8 } : State).rounds = 0#8 := rfl

/-- The longest message, and the empty one. -/
theorem wit_PadCompletes :
    ((idle 8).params.wf = true ∧ ({ idle 8 with ilen := 7#32 } : State).ilen.toNat < 8) ∧
      ((idle 4096).params.wf = true ∧ (idle 4096).ilen.toNat < (idle 4096).params.msgBytes) := by decide

/-- A full buffer of padding, and one pad byte (UC2). -/
theorem wit_UnpadCompletes :
    ∀ d ∈ [List.replicate 8 8#8, [1#8]],
      (holding 8 d).params.wf = true ∧ (holding 8 d).ilen.toNat ≤ (holding 8 d).params.msgBytes ∧
        unpadBytes ((holding 8 d).ibufBytes 0 (holding 8 d).ilen.toNat) = some [] := by decide

/-- The empty message (UC3), and a full buffer that ends in no pad byte. -/
theorem wit_UnpadReportsBadPadding :
    ∀ d ∈ [[], List.replicate 8 0#8],
      (holding 8 d).ilen.toNat ≤ (holding 8 d).params.msgBytes ∧
        unpadBytes ((holding 8 d).ibufBytes 0 (holding 8 d).ilen.toNat) = none := by decide

/-- Two blocks, the last index; and two equal blocks (E4). -/
theorem wit_EcbBlocksAreIndependent :
    let d : Bytes := List.replicate 16 1#8
    2 < (padBytes d).length / 8 ∧ 1 < d.length / 8 ∧ 0 < (padBytes d).length / 8 ∧ 1 < (padBytes d).length / 8 ∧
      slice (padBytes d) (8 * 0) (8 * 0 + 8) = slice (padBytes d) (8 * 1) (8 * 1 + 8) := by decide

theorem wit_EcbEncCompletes :
    (idle 8).params.wf = true ∧ ({ idle 8 with ilen := 7#32 } : State).ilen.toNat < 8 ∧
      (idle 8).ilen.toNat < (idle 8).params.msgBytes := by decide

/-- S1 in a full buffer. -/
theorem wit_EcbDecCompletes :
    let s := { holding 8 [0xf1#8, 0x0f#8, 0x02#8, 0xef#8, 0x04#8, 0x40#8, 0x2e#8, 0xab#8] with key := keyK }
    s.params.wf = true ∧ s.ilen.toNat ≤ s.params.msgBytes ∧ s.ilen.toNat % 8 = 0 ∧ s.ilen.toNat ≠ 0 ∧
      unpadBytes (ecbDecryptBlocks (s.ibufBytes 0 s.ilen.toNat) s.key s.rounds.toNat) =
        some [0x48#8, 0x65#8, 0x6c#8, 0x6c#8, 0x6f#8] := by decide +kernel

/-- S8. -/
theorem wit_EcbDecReportsBadPadding :
    let s := holding 8 [0xf1#8, 0x0f#8, 0x02#8, 0xef#8, 0x04#8, 0x40#8, 0x2e#8, 0xab#8]
    s.params.wf = true ∧ s.ilen.toNat ≤ s.params.msgBytes ∧ s.ilen.toNat % 8 = 0 ∧ s.ilen.toNat ≠ 0 ∧
      unpadBytes (ecbDecryptBlocks (s.ibufBytes 0 s.ilen.toNat) s.key s.rounds.toNat) = none := by decide +kernel

/-- S3 and S4. -/
theorem wit_EcbDecReportsBadLength :
    (({ idle 8 with ilen := 7#32 } : State).ilen.toNat ≤ 8 ∧ ({ idle 8 with ilen := 7#32 } : State).ilen.toNat % 8 ≠ 0) ∧
      ((idle 8).ilen.toNat ≤ (idle 8).params.msgBytes ∧ (idle 8).ilen.toNat = 0) := by decide

/-- PC4 and S5: MSG_BYTES for PAD, MSG_BYTES + 1 for ECB_DEC. -/
theorem wit_LengthOverflowComesFirst :
    (({ idle 1024 with ilen := 1024#32 } : State).ilen.toNat ≥ (idle 1024).params.msgBytes ∧
      (Instr.pad = .pad ∨ Instr.pad = .ecbEnc)) ∧
    (({ idle 1024 with ilen := 1025#32 } : State).ilen.toNat > (idle 1024).params.msgBytes ∧
      (Instr.ecbDec = .unpad ∨ Instr.ecbDec = .ecbDec)) := by decide

/-- What ECB_ENC of "Hello" leaves, and the state the host makes of it. -/
theorem wit_EcbCommandsRoundTrip :
    let s := { holding 8 [0x48#8, 0x65#8, 0x6c#8, 0x6c#8, 0x6f#8] with rounds := 1#8 }
    let c := ecbEncrypt [0x48#8, 0x65#8, 0x6c#8, 0x6c#8, 0x6f#8] s.key 1
    let t := { s with olen := 8#32, obuf := Memory.storeBytes [] 0 c, status := ⟨false, true, false, 0#4⟩ }
    let u := { holding 8 c with rounds := 1#8 }
    s.params.wf = true ∧ s.status.errcode = 0#4 ∧ exec .ecbEnc s = .next t ∧ t.status.errcode = 0#4 ∧
      u.params = s.params ∧ u.key = s.key ∧ u.rounds = s.rounds ∧ u.status.errcode = 0#4 ∧ u.ilen = t.olen ∧
      (∀ a, a < t.olen.toNat → u.ibufByte a = t.obufByte a) :=
  ⟨by decide, rfl, next_of_seen (by decide), rfl, rfl, rfl, rfl, rfl, by decide,
    by decide⟩

/-- A block command and a message command that answer a next state. -/
theorem wit_CommandsKeepInputs :
    (∃ t, exec .encBlock (idle 8) = .next t) ∧ (∃ t, exec .pad (idle 8) = .next t) := ⟨⟨_, rfl⟩, ⟨_, rfl⟩⟩

theorem wit_CommandsKeepOtherResults :
    (∃ t, exec .decBlock (idle 8) = .next t ∧ isBlockCommand .decBlock = true) ∧
      (∃ t, exec .pad (idle 8) = .next t ∧ isBlockCommand .pad = false ∧ t.olen.toNat ≤ 8 ∧
        (idle 8).params.wf = true) ∧
      (∃ t, exec .ecbDec (idle 8) = .next t ∧ isBlockCommand .ecbDec = false ∧ (idle 8).ilen.toNat ≤ 0 ∧
        (idle 8).params.wf = true) :=
  ⟨⟨_, rfl, rfl⟩, ⟨_, rfl, rfl, by decide, by decide⟩, ⟨_, rfl, rfl, by decide, by decide⟩⟩

theorem wit_OneErrorInPriorityOrder : (idle 8).params.wf = true ∧ (idle 8).status.errcode = 0#4 := by decide

/-- S8's ciphertext, which does not decrypt to a padded block under the zero key. -/
def wrongKey : Bytes := [0xf1#8, 0x0f#8, 0x02#8, 0xef#8, 0x04#8, 0x40#8, 0x2e#8, 0xab#8]

/-- A message command that fails, an illegal word, and ECB_DEC with bad padding. -/
theorem wit_FailedCommandLeavesResults :
    (∃ t, completionStep (running (idle 8) 6#32) = .next t ∧ t.status.errcode ≠ 0#4 ∧ decode 6#32 = .ok .unpad ∧
      (running (idle 8) 6#32).status.errcode = 0#4 ∧ (idle 8).params.wf = true) ∧
    (∃ t, completionStep (running (idle 8) 7#32) = .next t ∧ t.status.errcode ≠ 0#4 ∧
      decode 7#32 = .error .reservedOp) ∧
    (seen (completionStep (running (holding 8 wrongKey) 4#32)) (fun t => t.status.errcode) = some 2#4 ∧
      (running (holding 8 wrongKey) 4#32).status.errcode = 0#4 ∧ (holding 8 wrongKey).params.wf = true ∧
      decode (running (holding 8 wrongKey) 4#32).cmdreg = .ok .ecbDec) :=
  ⟨⟨_, rfl, by decide, by decide, by decide, by decide⟩, ⟨_, rfl, by decide, by decide⟩, by decide +kernel⟩

/-- Two blocks whose last is a pad block; with no rounds they are their own ciphertext. -/
def padded : Bytes := List.replicate 8 7#8 ++ List.replicate 8 8#8

/-- States that differ in what the command does not read; for ECB_DEC a full buffer, and one that fails Unpad. -/
theorem wit_ResultsDependOnReadsOnly :
    (SameReads .encBlock (idle 8) { idle 8 with ilen := 5#32, olen := 3#32 } ∧
      (∃ t t', exec .encBlock (idle 8) = .next t ∧
        exec .encBlock { idle 8 with ilen := 5#32, olen := 3#32 } = .next t')) ∧
    (SameReads .pad (idle 8) { idle 8 with key := keyK, obuf := [(3, 9#8)] } ∧
      (∃ t t', exec .pad (idle 8) = .next t ∧
        exec .pad { idle 8 with key := keyK, obuf := [(3, 9#8)] } = .next t')) ∧
    (∀ d ∈ [padded, List.replicate 16 0#8],
      let s := { holding 16 d with rounds := 0#8 }
      let s' := { s with olen := 9#32, obuf := [(3, 9#8)] }
      SameReads .ecbDec s s' ∧ s'.status.errcode = s.status.errcode ∧ s.ilen.toNat ≤ s.params.msgBytes ∧
        s.ilen.toNat % 8 = 0 ∧ (∃ t, exec .ecbDec s = .next t) ∧ (∃ t, exec .ecbDec s' = .next t)) := by
  refine ⟨⟨⟨rfl, rfl, rfl⟩, _, _, rfl, rfl⟩, ⟨⟨rfl, rfl, rfl⟩, _, _, rfl, rfl⟩, ?_⟩
  intro d hd
  have hlen : (BitVec.ofNat 32 d.length).toNat ≤ 16 ∧ (BitVec.ofNat 32 d.length).toNat % 8 = 0 := by
    revert d; decide
  refine ⟨⟨rfl, rfl, rfl, rfl, rfl⟩, rfl, hlen.1, hlen.2, ?_, ?_⟩
  · exact exists_next_of_seen (f := fun t => t.status.busy) (x := false) (by revert d; decide +kernel)
  · exact exists_next_of_seen (f := fun t => t.status.busy) (x := false) (by revert d; decide +kernel)

theorem wit_StepTakesNextEvent :
    ((idle 8).setSchedule [.host (.read 0#14 4)]).schedule = [.host (.read 0#14 4)] ∧
      ((idle 8).setSchedule [.reset, .core]).schedule = [.reset, .core] ∧
      ((idle 8).setSchedule [.core]).schedule = [.core] ∧ (idle 8).schedule = [] ∧
      (idle 8).status.busy = false := by decide

theorem wit_StepRunsDecodedCommand :
    (running (idle 8) 5#32).status.busy = true ∧ decode (running (idle 8) 5#32).cmdreg = .ok .pad ∧
      (running (idle 8) 5#32).schedule = [] ∧
      ((running (idle 8) 5#32).setSchedule [.core]).schedule = [.core] := by decide

/-- Into running by a CMD write; out of it by each of the three ways. -/
theorem wit_IdleAndRunningTransitions :
    ((idle 8).status.busy = false ∧
      seen (step ((idle 8).setSchedule [.host (.write 0x010#14 4 1#32)])) (fun t => t.status.busy) = some true) ∧
    (∀ es ∈ [[], [.core], [.reset]], (running (idle 8) 7#32).status.busy = true ∧
      seen (step ((running (idle 8) 7#32).setSchedule es)) (fun t => t.status.busy) = some false) := by decide

theorem wit_CmdWriteStartsCommand : (idle 8).status.busy = false := rfl

/-- Each clause, the window words at its two ends (capacity 8: words 0 and 1 are inside, word 2 is not). -/
theorem wit_BusyLockLosesWrites :
    (running (idle 8) 1#32).status.busy = true ∧
      (∀ o ∈ [0x00C, 0x010, 0x018, 0x020, 0x034, 0x1000, 0x1004],
        (BitVec.ofNat 14 o).toNat % 4 = 0 ∧ (target (idle 8).params (BitVec.ofNat 14 o).toNat).isLocked = true) ∧
      (∀ o ∈ [0x000, 0x004, 0x01C, 0x038, 0x03C, 0x040, 0x1008, 0x2000, 0x3FFC],
        (BitVec.ofNat 14 o).toNat % 4 = 0 ∧ (target (idle 8).params (BitVec.ofNat 14 o).toNat).ignoresWrites = true) ∧
      (0x008#14).toNat % 4 = 0 ∧ (0x014#14).toNat % 4 = 0 := by decide

theorem wit_BusyReadsHideResults :
    (running (idle 8) 1#32).status.busy = true ∧
      (∀ off ∈ [0x01C, 0x038, 0x03C, 0x2000, 0x2004], (target (idle 8).params off).isResult = true) ∧
      (∀ off ∈ [0x000, 0x018, 0x030, 0x1000, 0x2008],
        (target (idle 8).params off).isResult = false ∧ off ≠ Reg.status.offset) := by decide

theorem wit_CompletionTimeDoesNotMatter :
    (running (idle 8) 1#32).Inv ∧ (running (idle 8) 1#32).status.busy = true := ⟨running_inv (idle_inv (by decide)) _, rfl⟩

theorem wit_StartedCommandCompletes :
    let s := (running (idle 8) 1#32).setSchedule [.host (.read 0x014#14 4)]
    s.Inv ∧ s.status.busy = true ∧ Event.reset ∉ s.schedule :=
  ⟨setSchedule_inv (running_inv (idle_inv (by decide)) _) _, rfl, by decide⟩

/-- The schedule may write inputs, and even a misaligned CMD. -/
theorem wit_ResultsStayUntilNextStart :
    let s := (idle 8).setSchedule [.host (.write 0x030#14 4 5#32), .core, .host (.write 0x010#14 2 1#32)]
    s.status.busy = false ∧ (∀ e ∈ s.schedule, Event.quiet e = true) ∧ (∃ t, stepsTo 2 s = .next t) ∧
      (target s.params 0x2004).isResult = true :=
  ⟨rfl, by decide, ⟨_, rfl⟩, by decide⟩

/-- A wrong size at an aligned offset, and each misaligned remainder. -/
theorem wit_BadTransactionChangesNothing :
    (2 ≠ 4 ∨ (0x018#14).extractLsb' 0 2 ≠ 0#2) ∧ (0 ≠ 4 ∨ (0x018#14).extractLsb' 0 2 ≠ 0#2) ∧
      (4 ≠ 4 ∨ (0x001#14).extractLsb' 0 2 ≠ 0#2) ∧ (4 ≠ 4 ∨ (0x016#14).extractLsb' 0 2 ≠ 0#2) ∧
      (4 ≠ 4 ∨ (0x3FFF#14).extractLsb' 0 2 ≠ 0#2) := by decide

/-- The ends of each reserved range (capacity 8), and of the OBUF window. -/
theorem wit_ReservedReadsZeroIgnoresWrites :
    (∀ n ∈ [0x040, 0xFFC, 0x1008, 0x1FFC, 0x2008, 0x2FFC, 0x3000, 0x3FFC],
      (BitVec.ofNat 14 n).toNat % 4 = 0 ∧ (BitVec.ofNat 14 n).toNat = n ∧
        ((0x40 ≤ n ∧ n < 0x1000) ∨ 0x3000 ≤ n ∨ (0x1000 ≤ n ∧ n < 0x2000 ∧ (idle 8).params.msgBytes ≤ n - 0x1000) ∨
          (0x2000 ≤ n ∧ n < 0x3000 ∧ (idle 8).params.msgBytes ≤ n - 0x2000))) ∧
    (∀ n ∈ [0x000, 0x004, 0x01C, 0x038, 0x03C, 0x2000, 0x2FFC],
      (BitVec.ofNat 14 n).toNat % 4 = 0 ∧
        (BitVec.ofNat 14 n = 0x000#14 ∨ BitVec.ofNat 14 n = 0x004#14 ∨ BitVec.ofNat 14 n = 0x01C#14 ∨
          BitVec.ofNat 14 n = 0x038#14 ∨ BitVec.ofNat 14 n = 0x03C#14 ∨
          (0x2000 ≤ (BitVec.ofNat 14 n).toNat ∧ (BitVec.ofNat 14 n).toNat < 0x3000))) := by decide

/-- The first and the last word of the largest window, idle and busy. -/
theorem wit_IbufWindowIsBigEndian :
    (idle 4096).params.wf = true ∧ (idle 4096).status.busy = false ∧ 4 * 0 < (idle 4096).params.msgBytes ∧
      4 * 1023 < (idle 4096).params.msgBytes ∧ (running (idle 4096) 1#32).params.wf = true ∧
      (running (idle 4096) 1#32).status.busy = true := by decide

theorem wit_ObufWindowReadsWhenIdle :
    (idle 4096).params.wf = true ∧ 4 * 0 < (idle 4096).params.msgBytes ∧ 4 * 1023 < (idle 4096).params.msgBytes ∧
      (idle 4096).status.busy = false ∧ (running (idle 4096) 1#32).status.busy = true := by decide

theorem wit_IdleRegisterWrites : (idle 8).status.busy = false := rfl

/-- WBUSY cleared by a STATUS write, and by a reset. -/
theorem wit_WbusyIsSticky :
    ∀ e ∈ [Event.host (.write 0x014#14 4 4#32), .reset],
      let s := (withStatus ⟨false, false, true, 0#4⟩).setSchedule [e]
      s.status.wbusy = true ∧ seen (step s) (fun t => t.status.wbusy) = some false := by decide

theorem wit_InterruptFollowsDoneAndEnable :
    (withStatus ⟨false, true, false, 0#4⟩).status.done = true ∧ (1#32).getLsbD 0 = true ∧ (0#32).getLsbD 0 = false ∧
      (2#32).getLsbD 1 = true ∧ (withStatus ⟨false, true, false, 0#4⟩).status.busy = false ∧
      (running (idle 8) 7#32).status.busy = true ∧
      seen (coreTurn (running (idle 8) 7#32)) (fun t => t.status.done) = some true := by decide

theorem wit_ResetMeetsInvariant : Params.wf { msgBytes := 8, base := 0x4000 } = true := by decide

/-- A host's step and the Core's. -/
theorem wit_StepKeepsInvariant :
    ((idle 8).setSchedule [.host (.write 0x1000#14 4 5#32)]).Inv ∧
      (∃ t, step ((idle 8).setSchedule [.host (.write 0x1000#14 4 5#32)]) = .next t) ∧
      (running (idle 8) 5#32).Inv ∧ (∃ t, step (running (idle 8) 5#32) = .next t) :=
  ⟨setSchedule_inv (idle_inv (by decide)) _, ⟨_, rfl⟩, running_inv (idle_inv (by decide)) _, ⟨_, rfl⟩⟩

theorem wit_EveryRunGoesOn : (running (idle 8) 5#32).Inv := running_inv (idle_inv (by decide)) _

/-- One buffer, written in two orders. -/
theorem wit_EqualBuffersAreEqualData :
    let m := (Memory.store [] 3 7#8).store 1 5#8
    let m' := (Memory.store [] 1 5#8).store 3 7#8
    m.wf ∧ m'.wf ∧ (∀ a, m.lookup a = m'.lookup a) := ⟨by decide, by decide, fun _ => rfl⟩

/-- The longest plaintext of the smallest machine. -/
theorem wit_HostEncryptGivesEcbEncrypt :
    (idle 8).Inv ∧ (idle 8).status.busy = false ∧ bytesK.length = 16 ∧
      [1#8, 2#8, 3#8, 4#8, 5#8, 6#8, 7#8].length < (idle 8).params.msgBytes :=
  ⟨idle_inv (by decide), rfl, by decide, by decide⟩

end Sys2Proof.Tests
end

section
/-! SUPPORT. What a host write, the Core's turn and a command can do to the state, each said once: the forms the next
state can have. A proof about what every step keeps splits along these. -/

namespace Sys2Proof.Machine

/-! The address map (20_memory.md R62). -/

theorem ofOffset_eq_some {off : Nat} {r : Reg} : Reg.ofOffset off = some r ↔ off = r.offset := by
  constructor
  · intro h
    unfold Reg.ofOffset at h
    split at h <;> cases h <;> rfl
  · rintro rfl
    cases r <;> rfl

theorem offset_lt_page (r : Reg) : r.offset < 0x1000 := by cases r <;> decide

theorem target_eq_reg {p : Params} {off : Nat} {r : Reg} : target p off = .reg r ↔ off = r.offset := by
  constructor
  · intro h
    unfold target at h
    split at h
    · split at h
      next q hq => cases h; exact ofOffset_eq_some.mp hq
      next => cases h
    · split_ifs at h
  · rintro rfl
    rw [target, if_pos (offset_lt_page r), ofOffset_eq_some.mpr rfl]

/-- A window word of IBUF lies below the capacity (20_memory.md R67). -/
theorem lt_msgBytes_of_target_ibufWord {p : Params} {off j : Nat} (h : target p off = .ibufWord j) :
    4 * j < p.msgBytes := by
  unfold target at h
  split_ifs at h with h1 h2 h3
  · split at h <;> cases h
  · cases h; omega

/-! A host write. -/

/-- A write of a register changes only the registers that a write stores in, is lost while the core is busy, clears flags
of STATUS, or starts a command (10_state.md R21 to R35; 40_sequencer.md R111 to R113). -/
theorem writeReg_cases (s : State) (r : Reg) (w : Word) :
    (∃ c n l k d, s.writeReg r w = { s with ctrl := c, rounds := n, ilen := l, key := k, din := d }) ∨
    (s.status.busy = true ∧ s.writeReg r w = { s with status := s.status.lostWrite }) ∨
    (r = .status ∧ s.writeReg r w = { s with status := s.status.written w }) ∨
    (r = .cmd ∧ s.status.busy = false ∧ s.writeReg r w = startCommand w s) := by
  cases r with
  | id | cap | ctrl | olen | dout0 | dout1 => exact .inl ⟨_, _, _, _, _, rfl⟩
  | status => exact .inr (.inr (.inl ⟨rfl, rfl⟩))
  | cmd =>
    rcases locked_cases s (startCommand w) with h | h
    · exact .inr (.inl h)
    · exact .inr (.inr (.inr ⟨rfl, h⟩))
  | rounds | ilen | key0 | key1 | key2 | key3 | din0 | din1 =>
    simp only [State.writeReg]
    cases hb : s.status.busy with
    | true => exact .inr (.inl ⟨rfl, locked_of_busy hb _⟩)
    | false => exact .inl ⟨_, _, _, _, _, locked_of_idle hb _⟩

/-- A write of an aligned offset does what the write of a register does, or stores a word of the IBUF window of an idle
core (20_memory.md R62, R65 to R69). -/
theorem writeWord_cases (s : State) (off : Nat) (w : Word) :
    (∃ c n l k d, s.writeWord off w = { s with ctrl := c, rounds := n, ilen := l, key := k, din := d }) ∨
    (s.status.busy = true ∧ s.writeWord off w = { s with status := s.status.lostWrite }) ∨
    (off = Reg.status.offset ∧ s.writeWord off w = { s with status := s.status.written w }) ∨
    (off = Reg.cmd.offset ∧ s.status.busy = false ∧ s.writeWord off w = startCommand w s) ∨
    (∃ j, target s.params off = .ibufWord j ∧ s.status.busy = false ∧
      s.writeWord off w = { s with ibuf := s.ibuf.storeBytes (4 * j) (unbe32 w) }) := by
  unfold State.writeWord
  cases htarget : target s.params off with
  | reg r =>
    have hoff := target_eq_reg.mp htarget
    rcases writeReg_cases s r w with h | h | ⟨rfl, h⟩ | ⟨rfl, h⟩
    · exact .inl h
    · exact .inr (.inl h)
    · exact .inr (.inr (.inl ⟨hoff, h⟩))
    · exact .inr (.inr (.inr (.inl ⟨hoff, h⟩)))
  | ibufWord j =>
    rcases locked_cases s (fun t => { t with ibuf := t.ibuf.storeBytes (4 * j) (unbe32 w) }) with h | h
    · exact .inr (.inl h)
    · exact .inr (.inr (.inr (.inr ⟨j, rfl, h⟩)))
  | obufWord j => exact .inl ⟨_, _, _, _, _, rfl⟩
  | reserved => exact .inl ⟨_, _, _, _, _, rfl⟩

theorem accepted_iff {offset : BitVec 14} {size : Nat} :
    accepted offset size = true ↔ size = 4 ∧ offset.toNat % 4 = 0 := by simp [accepted]

/-- A transaction has no effect, or is a write of 4 bytes at an aligned offset, with the effect of that write
(20_memory.md R63, R64, R72). -/
theorem effectOf_cases (s : State) (t : Transaction) :
    s.effectOf t = s ∨
    ∃ offset w, t = .write offset 4 w ∧ offset.toNat % 4 = 0 ∧ s.effectOf t = s.writeWord offset.toNat w := by
  cases t with
  | read offset size => exact .inl rfl
  | write offset size w =>
    simp only [State.effectOf]
    split
    next h =>
      obtain ⟨rfl, halign⟩ := accepted_iff.mp h
      exact .inr ⟨offset, w, rfl, halign, rfl⟩
    next => exact .inl rfl

/-! A command, and the Core's turn. -/

/-- What a message command can leave: a string v stored at the start of OBUF (empty where nothing is stored), in OLEN a
length n that v has room for, and the flags of success, or those of an error with OLEN = 0 (60_exceptions.md R263). -/
def State.EndsMessage (s t : State) : Prop :=
  ∃ (v : Bytes) (n : Nat) (f : Status), v.length ≤ s.params.msgBytes ∧ n ≤ v.length ∧
    (f = s.status.completed ∨ n = 0 ∧ ∃ e, f = (s.status.raised e).completed) ∧
    t = { s with obuf := s.obuf.storeBytes 0 v, olen := BitVec.ofNat 32 n, status := f }

theorem endsMessage_of_failMessage {e : ErrorKind} {s t : State} (h : failMessage e s = .next t) : s.EndsMessage t :=
  ⟨[], 0, _, Nat.zero_le _, Nat.le_refl _, .inr ⟨rfl, e, rfl⟩, failMessage_eq_next.mp h⟩

theorem endsMessage_of_finishMessage {s t : State} {v : Bytes} (h : finishMessage s v = .next t) : s.EndsMessage t := by
  obtain ⟨hlen, rfl⟩ := finishMessage_eq_next.mp h
  exact ⟨v, v.length, _, hlen, Nat.le_refl _, .inl rfl, rfl⟩

/-- What Unpad answers is a beginning of its string (44_padding_codec.md R202). -/
theorem length_le_of_unpadBytes {d u : Bytes} (h : unpadBytes d = some u) : u.length ≤ d.length := by
  simp only [unpadBytes] at h
  split_ifs at h
  cases h
  exact List.length_take_le' _ _

/-- The common shape of the message commands: a length check, then the message read and worked on. -/
theorem endsMessage_of_checked {c : Prop} [Decidable c] {e : ErrorKind} {s t : State} {n : Nat}
    {k : Bytes → Host.Outcome State Fault Refusal}
    (h : (if c then failMessage e s else andThen (readIbuf s 0 n) k) = .next t)
    (hk : ∀ d, k d = .next t → s.EndsMessage t) : s.EndsMessage t := by
  split at h
  · exact endsMessage_of_failMessage h
  · obtain ⟨d, -, h⟩ := andThen_eq_next.mp h
    exact hk d h

theorem endsMessage_of_execUnpad {s t : State} (h : execUnpad s = .next t) : s.EndsMessage t := by
  refine endsMessage_of_checked h fun d h => ?_
  split at h
  · exact endsMessage_of_failMessage h
  · exact endsMessage_of_finishMessage h

theorem endsMessage_of_execEcbDec {s t : State} (h : execEcbDec s = .next t) : s.EndsMessage t := by
  unfold execEcbDec at h
  split_ifs at h
  · exact endsMessage_of_failMessage h
  · exact endsMessage_of_failMessage h
  · exact endsMessage_of_failMessage h
  · obtain ⟨c, -, h⟩ := andThen_eq_next.mp h
    obtain ⟨x, hx, h⟩ := andThen_eq_next.mp h
    obtain ⟨hlen, rfl⟩ := writeObuf_eq_next.mp hx
    rw [Nat.zero_add] at hlen
    split at h
    next => exact ⟨_, 0, _, hlen, Nat.zero_le _, .inr ⟨rfl, _, rfl⟩, failMessage_eq_next.mp h⟩
    next u hu => exact ⟨_, u.length, _, hlen, length_le_of_unpadBytes hu, .inl rfl, complete_eq_next.mp h⟩

/-- A block command writes DOUT and completes; a message command ends as `State.EndsMessage` says (30_encoding.md R94). -/
theorem exec_cases {i : Instr} {s t : State} (h : exec i s = .next t) :
    (isBlockCommand i = true ∧ ∃ b, t = { s with dout := b, status := s.status.completed }) ∨
    (isBlockCommand i = false ∧ s.EndsMessage t) := by
  cases i with
  | encBlock =>
    simp only [exec, execEncBlock, complete_eq_next] at h
    exact .inl ⟨rfl, _, h⟩
  | decBlock =>
    simp only [exec, execDecBlock, complete_eq_next] at h
    exact .inl ⟨rfl, _, h⟩
  | ecbEnc => exact .inr ⟨rfl, endsMessage_of_checked h fun _ => endsMessage_of_finishMessage⟩
  | ecbDec => exact .inr ⟨rfl, endsMessage_of_execEcbDec h⟩
  | pad => exact .inr ⟨rfl, endsMessage_of_checked h fun _ => endsMessage_of_finishMessage⟩
  | unpad => exact .inr ⟨rfl, endsMessage_of_execUnpad h⟩

/-- The Core's turn changes nothing in an idle core, and in a running one executes the command of the latch or raises
INVALID_COMMAND (40_sequencer.md R115, R116, R122). -/
theorem coreTurn_cases {s t : State} (h : coreTurn s = .next t) :
    (s.status.busy = false ∧ t = s) ∨
    (s.status.busy = true ∧ ∃ i, decode s.cmdreg = .ok i ∧ exec i s = .next t) ∨
    (s.status.busy = true ∧ (∃ e, decode s.cmdreg = .error e) ∧
      t = { s with status := (s.status.raised .invalidCommand).completed }) := by
  cases hb : s.status.busy with
  | false =>
    rw [coreTurn_of_idle hb] at h
    cases h
    exact .inl ⟨rfl, rfl⟩
  | true =>
    rw [coreTurn_of_busy hb] at h
    unfold completionStep at h
    split at h
    next i hi => exact .inr (.inl ⟨rfl, i, hi, h⟩)
    next e he => exact .inr (.inr ⟨rfl, ⟨e, he⟩, raiseError_eq_next.mp h⟩)

end Sys2Proof.Machine
end

section
/-! PROOFS. The invariant along every step: first what each kind of update does to it, then a write, a command, the Core's
turn and a reset, then the step. -/

namespace Sys2Proof.Machine

theorem code_toNat_le (e : ErrorKind) : e.code.toNat ≤ 4 := by cases e <;> decide

/-- The invariant speaks of the parameters, the buffers, STATUS and OLEN only. -/
theorem State.Inv.congr {s t : State} (h : s.Inv) (hparams : t.params = s.params) (hibuf : t.ibuf = s.ibuf)
    (hobuf : t.obuf = s.obuf) (hstatus : t.status = s.status) (holen : t.olen = s.olen) : t.Inv where
  params := hparams ▸ h.params
  ibuf_wf := hibuf ▸ h.ibuf_wf
  ibuf_below := hparams ▸ hibuf ▸ h.ibuf_below
  obuf_wf := hobuf ▸ h.obuf_wf
  obuf_below := hparams ▸ hobuf ▸ h.obuf_below
  running := hstatus ▸ h.running
  errcode_le := hstatus ▸ h.errcode_le
  olen_le := hparams ▸ holen ▸ h.olen_le

/-- STATUS may change to any flags that meet the invariant's two clauses about it. -/
theorem State.Inv.withStatus {s : State} (h : s.Inv) {f : Status}
    (hrunning : f.busy = true → f.done = false ∧ f.errcode = 0#4) (hcode : f.errcode.toNat ≤ 4) :
    State.Inv { s with status := f } :=
  { h with running := hrunning, errcode_le := hcode }

/-- The flags of an idle core meet the clause about a running command. -/
theorem State.Inv.withIdleStatus {s : State} (h : s.Inv) {f : Status} (hidle : f.busy = false)
    (hcode : f.errcode.toNat ≤ 4) : State.Inv { s with status := f } :=
  h.withStatus (fun hb => by simp [hidle] at hb) hcode

/-- A string that fits may be stored in OBUF, and a length that fits in OLEN. -/
theorem State.Inv.withResult {s : State} (h : s.Inv) {v : Bytes} {n : Nat} (hv : v.length ≤ s.params.msgBytes)
    (hn : n ≤ v.length) :
    State.Inv { s with obuf := s.obuf.storeBytes 0 v, olen := BitVec.ofNat 32 n } :=
  { h with
    obuf_wf := Memory.wf_storeBytes 0 v h.obuf_wf
    obuf_below := Memory.below_storeBytes h.obuf_below ((Nat.zero_add _).trans_le hv)
    olen_le := by
      rw [BitVec.toNat_ofNat]
      exact (Nat.mod_le _ _).trans (hn.trans hv) }

/-- A window word may be stored in IBUF: the capacity is a multiple of 4, so the whole word lies in it. -/
theorem State.Inv.withIbufWord {s : State} (h : s.Inv) {j : Nat} (hj : 4 * j < s.params.msgBytes) (w : Word) :
    State.Inv { s with ibuf := s.ibuf.storeBytes (4 * j) (unbe32 w) } := by
  have hfits : 4 * j + (unbe32 w).length ≤ s.params.msgBytes := by
    obtain ⟨h8, -⟩ := params_wf h.params
    rw [length_unbe32]
    omega
  exact { h with
    ibuf_wf := Memory.wf_storeBytes (4 * j) (unbe32 w) h.ibuf_wf
    ibuf_below := Memory.below_storeBytes h.ibuf_below hfits }

theorem inv_startCommand {s : State} (h : s.Inv) (w : Word) : (startCommand w s).Inv :=
  (h.withStatus (f := s.status.started) (fun _ => ⟨rfl, rfl⟩) (Nat.zero_le _)).congr rfl rfl rfl rfl rfl

theorem inv_writeWord {s : State} (h : s.Inv) (off : Nat) (w : Word) : (s.writeWord off w).Inv := by
  rcases writeWord_cases s off w with
    ⟨c, n, l, k, d, e⟩ | ⟨-, e⟩ | ⟨-, e⟩ | ⟨-, -, e⟩ | ⟨j, hj, -, e⟩ <;> rw [e]
  · exact h.congr rfl rfl rfl rfl rfl
  · exact h.withStatus h.running h.errcode_le
  · refine h.withStatus (fun hb => ?_) h.errcode_le
    obtain ⟨hdone, hcode⟩ := h.running hb
    exact ⟨by simp [hdone], hcode⟩
  · exact inv_startCommand h w
  · exact h.withIbufWord (lt_msgBytes_of_target_ibufWord hj) w

theorem inv_transact {s : State} (h : s.Inv) (t : Transaction) : (transact t s).Inv := by
  have heffect : (s.effectOf t).Inv := by
    rcases effectOf_cases s t with e | ⟨offset, w, -, -, e⟩ <;> rw [e]
    · exact h
    · exact inv_writeWord h offset.toNat w
  exact heffect.congr rfl rfl rfl rfl rfl

theorem State.Inv.of_endsMessage {s t : State} (h : s.Inv) (he : s.EndsMessage t) : t.Inv := by
  obtain ⟨v, n, f, hv, hn, hf, rfl⟩ := he
  rcases hf with rfl | ⟨-, e, rfl⟩
  · exact (h.withResult hv hn).withIdleStatus rfl h.errcode_le
  · exact (h.withResult hv hn).withIdleStatus rfl (code_toNat_le e)

theorem inv_of_exec {i : Instr} {s t : State} (h : s.Inv) (hexec : exec i s = .next t) : t.Inv := by
  rcases exec_cases hexec with ⟨-, b, rfl⟩ | ⟨-, he⟩
  · exact (h.withIdleStatus (f := s.status.completed) rfl h.errcode_le).congr rfl rfl rfl rfl rfl
  · exact h.of_endsMessage he

theorem inv_of_coreTurn {s t : State} (h : s.Inv) (hturn : coreTurn s = .next t) : t.Inv := by
  rcases coreTurn_cases hturn with ⟨-, rfl⟩ | ⟨-, i, -, hexec⟩ | ⟨-, -, rfl⟩
  · exact h
  · exact inv_of_exec h hexec
  · exact h.withIdleStatus rfl (code_toNat_le .invalidCommand)

theorem inv_resetEvent {s : State} (h : s.Inv) : (resetEvent s).Inv where
  params := h.params
  ibuf_wf := List.Pairwise.nil
  ibuf_below := fun _ hc => absurd hc List.not_mem_nil
  obuf_wf := List.Pairwise.nil
  obuf_below := fun _ hc => absurd hc List.not_mem_nil
  running := fun hb => absurd hb Bool.false_ne_true
  errcode_le := Nat.zero_le _
  olen_le := Nat.zero_le _

/-- Settles O55: a step is a transaction, a reset or the Core's turn, and each keeps the invariant. -/
theorem stepKeepsInvariant : Obligations.StepKeepsInvariant := by
  intro s t h hstep
  have hsched : ∀ es, (s.setSchedule es).Inv := fun es => h.congr rfl rfl rfl rfl rfl
  rcases step_cases s with ⟨x, rest, -, e⟩ | ⟨rest, -, e⟩ | ⟨rest, -, e⟩ | ⟨-, e⟩ <;> rw [e] at hstep
  · cases hstep
    exact inv_transact (hsched rest) x
  · cases hstep
    exact inv_resetEvent (hsched rest)
  · exact inv_of_coreTurn (hsched rest) hstep
  · exact inv_of_coreTurn h hstep

end Sys2Proof.Machine
end

section
/-! PROOFS. What the host reads from and writes to the register page: the registers of an idle core, the bits of STATUS,
the life of WBUSY, and the key, which no answer shows. -/

namespace Sys2Proof.Machine

/-- A read at a register's offset is that register's read (20_memory.md R62). -/
theorem readWord_reg (s : State) (r : Reg) : s.readWord r.offset = s.readReg r := by
  rw [State.readWord, target_eq_reg.mpr rfl]

theorem maskedWhileBusy_of_idle {s : State} (h : s.status.busy = false) (w : Word) : s.maskedWhileBusy w = w := by
  simp [State.maskedWhileBusy, h]

/-- A write of a locked register of an idle core takes effect (40_sequencer.md R113). -/
theorem effectOf_reg_of_idle {s t : State} {r : Reg} {w : Word} (hb : s.status.busy = false)
    (h : s.writeReg r w = locked s fun _ => t) : s.effectOf (.write (BitVec.ofNat 14 r.offset) 4 w) = t := by
  rw [effectOf_reg, h, locked_of_idle hb]

/-! Joined bits as a number. -/

theorem toNat_append_eq_add {m n : Nat} (x : BitVec m) (y : BitVec n) :
    (x ++ y).toNat = 2 ^ n * x.toNat + y.toNat := by
  rw [BitVec.toNat_append, ← Nat.shiftLeft_add_eq_or_of_lt y.isLt, Nat.shiftLeft_eq, Nat.mul_comm]

theorem toNat_zero_append {m n : Nat} (x : BitVec n) : (0#m ++ x).toNat = x.toNat := by
  rw [toNat_append_eq_add, BitVec.toNat_zero, Nat.mul_zero, Nat.zero_add]

theorem toNat_getLsbD_zero (w : Word) : (w.getLsbD 0).toNat = w.toNat % 2 := by
  rw [BitVec.getLsbD, Nat.toNat_testBit, Nat.pow_zero, Nat.div_one]

/-! The register page. -/

/-- CTRL reads IE in bit 0 and zeros above (10_state.md R23). -/
theorem readWord_ctrl (s : State) : s.readWord Reg.ctrl.offset = 0#31 ++ BitVec.ofBool s.ctrl.ie :=
  (readWord_reg s .ctrl).trans (BitVec.setWidth_eq_append (by decide))

/-- ROUNDS reads N in bits 7:0 and zeros above (10_state.md R24). -/
theorem readWord_rounds (s : State) : s.readWord Reg.rounds.offset = 0#24 ++ s.rounds :=
  (readWord_reg s .rounds).trans (BitVec.setWidth_eq_append (by decide))

theorem toNat_readWord_ctrl (s : State) : (s.readWord Reg.ctrl.offset).toNat = s.ctrl.ie.toNat := by
  rw [readWord_ctrl, toNat_zero_append, BitVec.toNat_ofBool]

theorem toNat_readWord_rounds (s : State) : (s.readWord Reg.rounds.offset).toNat = s.rounds.toNat := by
  rw [readWord_rounds, toNat_zero_append]

/-- A result register of an idle core reads its stored value (40_sequencer.md R114). -/
theorem readWord_result_of_idle {s : State} {r : Reg} {v : Word} (hb : s.status.busy = false)
    (h : s.readReg r = s.maskedWhileBusy v) : s.readWord r.offset = v := by
  rw [readWord_reg, h, maskedWhileBusy_of_idle hb]

/-- Settles O48, register by register: the read of its offset, the write of an idle core, and the two together. -/
theorem idleRegisterWrites : Obligations.IdleRegisterWrites := by
  intro s w hb
  have hctrl : s.effectOf (.write 0x008#14 4 w) = { s with ctrl := { ie := w.getLsbD 0 } } := effectOf_reg s .ctrl w
  have hrounds : s.effectOf (.write 0x00C#14 4 w) = { s with rounds := w.extractLsb' 0 8 } :=
    effectOf_reg_of_idle (r := .rounds) hb rfl
  have hilen : s.effectOf (.write 0x018#14 4 w) = { s with ilen := w } := effectOf_reg_of_idle (r := .ilen) hb rfl
  have hdin0 : s.effectOf (.write 0x030#14 4 w) = { s with din := { s.din with v0 := w } } :=
    effectOf_reg_of_idle (r := .din0) hb rfl
  have hdin1 : s.effectOf (.write 0x034#14 4 w) = { s with din := { s.din with v1 := w } } :=
    effectOf_reg_of_idle (r := .din1) hb rfl
  rw [hctrl, hrounds, hilen, hdin0, hdin1]
  refine ⟨readWord_reg s .id, readWord_reg s .cap, ⟨readWord_ctrl s, rfl, ?_⟩, ⟨readWord_rounds s, rfl, ?_⟩,
    readWord_reg s .cmd, ⟨readWord_reg s .ilen, rfl, readWord_reg _ .ilen⟩,
    ⟨effectOf_reg_of_idle (r := .key0) hb rfl, effectOf_reg_of_idle (r := .key1) hb rfl,
      effectOf_reg_of_idle (r := .key2) hb rfl, effectOf_reg_of_idle (r := .key3) hb rfl,
      readWord_reg s .key0, readWord_reg s .key1, readWord_reg s .key2, readWord_reg s .key3⟩,
    ⟨readWord_reg s .din0, readWord_reg s .din1, rfl, rfl, readWord_reg _ .din0, readWord_reg _ .din1⟩,
    ⟨readWord_result_of_idle (r := .olen) hb rfl, readWord_result_of_idle (r := .dout0) hb rfl,
      readWord_result_of_idle (r := .dout1) hb rfl⟩⟩
  · exact (toNat_readWord_ctrl _).trans (toNat_getLsbD_zero w)
  · exact (toNat_readWord_rounds _).trans (BitVec.extractLsb'_toNat 0 8 w)

/-- STATUS as a number: BUSY in bit 0, DONE in bit 1, WBUSY in bit 2, ERRCODE in bits 11:8 (10_state.md R26 to R30). -/
theorem toNat_statusWord (f : Status) :
    f.word.toNat = f.busy.toNat + 2 * f.done.toNat + 4 * f.wbusy.toNat + 256 * f.errcode.toNat := by
  simp only [Status.word, toNat_append_eq_add, BitVec.toNat_ofBool, BitVec.toNat_ofNat]
  omega

/-- A write of STATUS clears DONE by its bit 1 and WBUSY by its bit 2 (10_state.md R27, R28, R30). -/
theorem written_eq (f : Status) (w : Word) :
    f.written w = { busy := f.busy, done := if w.getLsbD 1 then false else f.done,
                    wbusy := if w.getLsbD 2 then false else f.wbusy, errcode := f.errcode } := by
  unfold Status.written
  cases w.getLsbD 1 <;> cases w.getLsbD 2 <;> simp

/-- Settles O50: `toNat_statusWord` is the read, `written_eq` the write. -/
theorem statusBitsAndWriteOneToClear : Obligations.StatusBitsAndWriteOneToClear := by
  intro s w
  have hread : s.readWord 0x014 = s.status.word := readWord_reg s .status
  have hwrite : s.effectOf (.write 0x014#14 4 w) = { s with status := s.status.written w } := effectOf_reg s .status w
  exact ⟨by rw [hread, toNat_statusWord], by rw [hwrite, written_eq]⟩

/-! WBUSY (10_state.md R28). -/

theorem status_written_of_writeWord_clears_wbusy {s : State} {off : Nat} {w : Word} (hset : s.status.wbusy = true)
    (hclear : (s.writeWord off w).status.wbusy = false) : off = Reg.status.offset ∧ w.getLsbD 2 = true := by
  rcases writeWord_cases s off w with
    ⟨c, n, l, k, d, e⟩ | ⟨-, e⟩ | ⟨hoff, e⟩ | ⟨-, -, e⟩ | ⟨j, -, -, e⟩ <;> rw [e] at hclear
  · cases hset.symm.trans hclear
  · cases hclear
  · exact ⟨hoff, by simpa [hset] using hclear⟩
  · cases hset.symm.trans hclear
  · cases hset.symm.trans hclear

/-- A transaction that clears WBUSY is a 4-byte write of STATUS with bit 2 set. -/
theorem status_written_of_effectOf_clears_wbusy {s : State} {t : Transaction} (hset : s.status.wbusy = true)
    (hclear : (s.effectOf t).status.wbusy = false) : ∃ w, t = .write 0x014#14 4 w ∧ w.getLsbD 2 = true := by
  rcases effectOf_cases s t with e | ⟨offset, w, rfl, -, e⟩ <;> rw [e] at hclear
  · cases hset.symm.trans hclear
  · obtain ⟨hoff, hw⟩ := status_written_of_writeWord_clears_wbusy hset hclear
    have hoffset : offset = 0x014#14 := BitVec.eq_of_toNat_eq hoff
    exact ⟨w, by rw [hoffset], hw⟩

/-- No command changes WBUSY (40_sequencer.md R115). -/
theorem exec_wbusy {i : Instr} {s t : State} (h : exec i s = .next t) : t.status.wbusy = s.status.wbusy := by
  rcases exec_cases h with ⟨-, b, rfl⟩ | ⟨-, v, n, f, -, -, hf, rfl⟩
  · rfl
  · rcases hf with rfl | ⟨-, e, rfl⟩ <;> rfl

theorem coreTurn_wbusy {s t : State} (h : coreTurn s = .next t) : t.status.wbusy = s.status.wbusy := by
  rcases coreTurn_cases h with ⟨-, rfl⟩ | ⟨-, i, -, hexec⟩ | ⟨-, -, rfl⟩
  · rfl
  · exact exec_wbusy hexec
  · rfl

/-- Settles O51: of the four kinds of step the Core's turn leaves WBUSY, and a transaction clears it by STATUS only. -/
theorem wbusyIsSticky : Obligations.WbusyIsSticky := by
  intro s t hstep hset hclear
  rcases step_cases s with ⟨x, rest, hs, e⟩ | ⟨rest, hs, -⟩ | ⟨rest, -, e⟩ | ⟨-, e⟩
  · rw [e] at hstep
    cases hstep
    obtain ⟨w, rfl, hw⟩ := status_written_of_effectOf_clears_wbusy (s := s.setSchedule rest) hset hclear
    exact .inl ⟨w, rest, hs, hw⟩
  · exact .inr ⟨rest, hs⟩
  · cases hclear.symm.trans ((coreTurn_wbusy (e.symm.trans hstep)).trans hset)
  · cases hclear.symm.trans ((coreTurn_wbusy (e.symm.trans hstep)).trans hset)

/-! The key (10_state.md R33). -/

theorem readReg_setKey (s : State) (k : Key) (r : Reg) : State.readReg { s with key := k } r = s.readReg r := by
  cases r <;> rfl

theorem readWord_setKey (s : State) (k : Key) (off : Nat) : State.readWord { s with key := k } off = s.readWord off := by
  unfold State.readWord
  cases target s.params off with
  | reg r => exact readReg_setKey s k r
  | ibufWord j | obufWord j | reserved => rfl

/-- Settles O49: an accepted read answers the word read, which the key plays no part in; no other answer depends on the
state. -/
theorem keyCannotBeReadBack : Obligations.KeyCannotBeReadBack := by
  intro s k t
  cases t with
  | read offset size => rw [State.answerTo, State.answerTo, readWord_setKey]
  | write offset size w => rfl

end Sys2Proof.Machine
end

section
/-! PROOFS. A buffer in canonical form is determined by what it lists: an index is listed with a byte exactly when that
pair is a member, and strictly rising lists with the same members are equal. -/

namespace Sys2Proof.Machine

theorem Memory.mem_of_lookup {m : Memory} {a : Nat} {v : Byte} (h : m.lookup a = some v) : (a, v) ∈ m := by
  induction m with
  | nil => cases h
  | cons c rest ih =>
    simp only [Memory.lookup] at h
    split at h
    next ha =>
      cases h
      exact ha ▸ List.mem_cons_self
    next => exact List.mem_cons_of_mem _ (ih h)

theorem Memory.lookup_of_mem {m : Memory} {a : Nat} {v : Byte} (hm : m.wf) (h : (a, v) ∈ m) : m.lookup a = some v := by
  induction m with
  | nil => cases h
  | cons c rest ih =>
    obtain ⟨hc, hrest⟩ := List.pairwise_cons.mp hm
    rcases List.mem_cons.mp h with rfl | h
    · simp [Memory.lookup]
    · have hne : a ≠ c.1 := (hc _ h).ne'
      rw [Memory.lookup, if_neg hne]
      exact ih hrest h

theorem Memory.lookup_eq_some {m : Memory} {a : Nat} {v : Byte} (hm : m.wf) : m.lookup a = some v ↔ (a, v) ∈ m :=
  ⟨Memory.mem_of_lookup, Memory.lookup_of_mem hm⟩

/-- Settles O57: the two buffers have the same members, and both are strictly rising. -/
theorem equalBuffersAreEqualData : Obligations.EqualBuffersAreEqualData := by
  intro m m' hm hm' hlookup
  have : Std.Irrefl fun x y : Host.Cell => x.1 < y.1 := ⟨fun x => Nat.lt_irrefl x.1⟩
  have : Std.Antisymm fun x y : Host.Cell => x.1 < y.1 := ⟨fun _ _ h h' => absurd h' (Nat.lt_asymm h)⟩
  refine List.Pairwise.eq_of_mem_iff hm hm' fun ⟨a, v⟩ => ?_
  rw [← Memory.lookup_eq_some hm, ← Memory.lookup_eq_some hm', hlookup]

end Sys2Proof.Machine
end

section
/-! PROOFS. The machine never stops: each command of a legal machine answers a next state, since the length checks of
60_exceptions.md R264 keep every buffer access within MSG_BYTES; so do the Core's turn, the step and every run. -/

namespace Sys2Proof.Machine

theorem finishMessage_answers {s : State} {v : Bytes} (h : v.length ≤ s.params.msgBytes) :
    ∃ t, finishMessage s v = .next t :=
  ⟨_, finishMessage_of_le h⟩

/-- The message fits the buffer, so the read of it answers its bytes (20_memory.md R79). -/
theorem readIbuf_message {s : State} (h : s.messageLength ≤ s.params.msgBytes) :
    readIbuf s 0 s.messageLength = .next s.message :=
  readIbuf_of_le ((Nat.zero_add _).trans_le h)

/-- A message command that checks the length first answers a next state when the rest of it does on a message that fits. -/
theorem checked_answers {c : Prop} [Decidable c] {e : ErrorKind} {s : State}
    {k : Bytes → Host.Outcome State Fault Refusal} (hfits : ¬c → s.messageLength ≤ s.params.msgBytes)
    (hk : ¬c → ∃ t, k s.message = .next t) :
    ∃ t, (if c then failMessage e s else andThen (readIbuf s 0 s.messageLength) k) = .next t := by
  split
  next => exact ⟨_, rfl⟩
  next hc =>
    rw [readIbuf_message (hfits hc), andThen_next]
    exact hk hc

/-- A message below the capacity still fits when padded: the capacity is a multiple of 8 (44_padding_codec.md R204). -/
theorem length_padBytes_message_le {s : State} (h : s.params.wf = true) (hlen : ¬s.messageLength ≥ s.params.msgBytes) :
    (padBytes s.message).length ≤ s.params.msgBytes := by
  obtain ⟨h8, -⟩ := params_wf h
  exact length_padBytes_le h8 (by rw [length_message]; omega)

theorem execEcbEnc_answers {s : State} (h : s.params.wf = true) : ∃ t, execEcbEnc s = .next t :=
  checked_answers (fun hlen => by omega) fun hlen =>
    finishMessage_answers ((length_ecbEncrypt _ _ _).trans_le (length_padBytes_message_le h hlen))

theorem execPad_answers {s : State} (h : s.params.wf = true) : ∃ t, execPad s = .next t :=
  checked_answers (fun hlen => by omega) fun hlen => finishMessage_answers (length_padBytes_message_le h hlen)

theorem execUnpad_answers (s : State) : ∃ t, execUnpad s = .next t := by
  refine checked_answers (fun hlen => by omega) fun hlen => ?_
  split
  next => exact ⟨_, rfl⟩
  next u hu =>
    have hu := length_le_of_unpadBytes hu
    rw [length_message] at hu
    exact finishMessage_answers (by omega)

theorem execEcbDec_answers (s : State) : ∃ t, execEcbDec s = .next t := by
  unfold execEcbDec
  split_ifs with hlen h8 h0
  · exact ⟨_, rfl⟩
  · exact ⟨_, rfl⟩
  · exact ⟨_, rfl⟩
  · have hq : (ecbDecryptBlocks s.message s.key s.roundCount).length ≤ s.params.msgBytes := by
      rw [length_ecbDecryptBlocks _ _ (by rw [length_message]; omega), length_message]
      omega
    simp only [readIbuf_message (Nat.not_lt.mp hlen), andThen_next, writeObuf_of_le ((Nat.zero_add _).trans_le hq)]
    split
    · exact ⟨_, rfl⟩
    · exact ⟨_, rfl⟩

theorem exec_answers (i : Instr) {s : State} (h : s.params.wf = true) : ∃ t, exec i s = .next t := by
  cases i with
  | encBlock | decBlock => exact ⟨_, rfl⟩
  | ecbEnc => exact execEcbEnc_answers h
  | ecbDec => exact execEcbDec_answers s
  | pad => exact execPad_answers h
  | unpad => exact execUnpad_answers s

theorem coreTurn_answers {s : State} (h : s.params.wf = true) : ∃ t, coreTurn s = .next t := by
  cases hb : s.status.busy with
  | false => exact ⟨s, coreTurn_of_idle hb⟩
  | true =>
    rw [coreTurn_of_busy hb, completionStep]
    split
    next i _ => exact exec_answers i h
    next => exact ⟨_, rfl⟩

theorem step_answers {s : State} (h : s.params.wf = true) : ∃ t, step s = .next t := by
  rcases step_cases s with ⟨t, rest, -, e⟩ | ⟨rest, -, e⟩ | ⟨rest, -, e⟩ | ⟨-, e⟩ <;> rw [e]
  · exact ⟨_, rfl⟩
  · exact ⟨_, rfl⟩
  · exact coreTurn_answers h
  · exact coreTurn_answers h

/-- Settles O56, by induction on the length of the run: the first step answers (`step_answers`) and keeps the invariant
(O55), which carries the parameters' legality on. -/
theorem everyRunGoesOn : Obligations.EveryRunGoesOn := by
  intro k
  induction k with
  | zero => exact fun s h => ⟨s, rfl, h⟩
  | succ k ih =>
    intro s h
    obtain ⟨u, hu⟩ := step_answers h.params
    rw [stepsTo_succ, hu, andThen_next]
    exact ih u (stepKeepsInvariant s u h hu)

end Sys2Proof.Machine
end

section
/-! PROOFS. The step as the next event of the total order, and the results as the host reads them while no command is
started and no reset comes (20_memory.md R73, R75). -/

namespace Sys2Proof.Machine

/-- Settles O35: the laws of the step, one kind of event each; a transaction does not look at the schedule. -/
theorem stepTakesNextEvent : Obligations.StepTakesNextEvent := by
  intro s
  refine ⟨fun t rest h => ?_, fun rest h => step_of_reset h, fun rest h => step_of_core h, step_of_nil,
    coreTurn_of_idle⟩
  rw [step_of_host h, transact, effectOf_setSchedule, answerTo_setSchedule, State.setSchedule]

/-! The results. -/

/-- The host finds in t the results of s: the same capacity, BUSY and results. -/
structure State.ShowsResultsOf (t s : State) : Prop where
  params : t.params = s.params
  busy : t.status.busy = s.status.busy
  results : s.SameResults t

theorem State.SameResults.refl (s : State) : s.SameResults s := ⟨rfl, rfl, rfl, rfl, rfl⟩

theorem State.SameResults.trans {s t u : State} (hst : s.SameResults t) (htu : t.SameResults u) : s.SameResults u := by
  obtain ⟨hdout, holen, hobuf, hdraw, herr⟩ := hst
  obtain ⟨hdout', holen', hobuf', hdraw', herr'⟩ := htu
  exact ⟨hdout'.trans hdout, holen'.trans holen, hobuf'.trans hobuf, hdraw'.trans hdraw, herr'.trans herr⟩

theorem State.ShowsResultsOf.refl (s : State) : s.ShowsResultsOf s := ⟨rfl, rfl, .refl s⟩

theorem State.ShowsResultsOf.trans {s t u : State} (htu : u.ShowsResultsOf t) (hst : t.ShowsResultsOf s) :
    u.ShowsResultsOf s :=
  ⟨htu.params.trans hst.params, htu.busy.trans hst.busy, hst.results.trans htu.results⟩

/-- DOUT0, DOUT1, OLEN and the OBUF window read the same in both states (40_sequencer.md R114). -/
theorem State.ShowsResultsOf.readWord_eq {s t : State} (h : t.ShowsResultsOf s) {off : Nat}
    (hoff : (target s.params off).isResult = true) : t.readWord off = s.readWord off := by
  obtain ⟨hp, hb, hdout, holen, hobuf, hdraw, -⟩ := h
  have hmask : t.maskedWhileBusy = s.maskedWhileBusy := by
    unfold State.maskedWhileBusy
    rw [hb]
  unfold State.readWord
  rw [hp]
  cases htarget : target s.params off with
  | reg r =>
    rw [htarget] at hoff
    cases r with
    | olen => simp only [State.readReg, hmask, holen]
    | dout0 | dout1 => simp only [State.readReg, hmask, hdout]
    | _ => cases hoff
  | obufWord j => simp only [hmask, State.obufBytes_congr hobuf hdraw]
  | ibufWord j | reserved => cases htarget ▸ hoff

/-- A transaction that starts no command leaves BUSY and every result (30_encoding.md R94). -/
theorem showsResultsOf_effectOf (s : State) {t : Transaction} (ht : t.writesCmd = false) :
    (s.effectOf t).ShowsResultsOf s := by
  rcases effectOf_cases s t with e | ⟨offset, w, rfl, halign, e⟩ <;> rw [e]
  · exact .refl s
  · have hoff : offset.toNat ≠ Reg.cmd.offset := by
      simpa [Transaction.writesCmd, accepted_iff, halign] using ht
    rcases writeWord_cases s offset.toNat w with
      ⟨c, n, l, k, d, e⟩ | ⟨-, e⟩ | ⟨-, e⟩ | ⟨hcmd, -, -⟩ | ⟨j, -, -, e⟩
    · exact e ▸ ⟨rfl, rfl, .refl s⟩
    · exact e ▸ ⟨rfl, rfl, .refl s⟩
    · exact e ▸ ⟨rfl, rfl, .refl s⟩
    · exact absurd hcmd hoff
    · exact e ▸ ⟨rfl, rfl, .refl s⟩

/-- A step of an idle core by an event that neither starts a command nor resets the core leaves the core idle with the
same results. -/
theorem showsResultsOf_step {s u : State} (hb : s.status.busy = false) (hquiet : ∀ e ∈ s.schedule, Event.quiet e = true)
    (hstep : step s = .next u) : u.ShowsResultsOf s ∧ ∀ e ∈ u.schedule, Event.quiet e = true := by
  rcases step_cases s with ⟨t, rest, hs, e⟩ | ⟨rest, hs, -⟩ | ⟨rest, hs, e⟩ | ⟨-, e⟩
  · rw [hs, List.forall_mem_cons] at hquiet
    obtain ⟨ht, hrest⟩ := hquiet
    cases e.symm.trans hstep
    have heffect := showsResultsOf_effectOf (s.setSchedule rest) (t := t) (by simpa [Event.quiet] using ht)
    refine ⟨⟨heffect.params, heffect.busy, heffect.results⟩, ?_⟩
    rwa [transact, effectOf_setSchedule]
  · rw [hs, List.forall_mem_cons] at hquiet
    cases hquiet.1
  · rw [hs, List.forall_mem_cons] at hquiet
    cases (coreTurn_of_idle (s := s.setSchedule rest) hb).symm.trans (e.symm.trans hstep)
    exact ⟨⟨rfl, rfl, .refl s⟩, hquiet.2⟩
  · cases (coreTurn_of_idle hb).symm.trans (e.symm.trans hstep)
    exact ⟨.refl s, hquiet⟩

theorem showsResultsOf_stepsTo {k : Nat} {s t : State} (hb : s.status.busy = false)
    (hquiet : ∀ e ∈ s.schedule, Event.quiet e = true) (hrun : stepsTo k s = .next t) : t.ShowsResultsOf s := by
  induction k generalizing s with
  | zero =>
    cases hrun
    exact .refl _
  | succ k ih =>
    obtain ⟨u, hstep, hrun⟩ := andThen_eq_next.mp hrun
    obtain ⟨hshows, hquiet⟩ := showsResultsOf_step hb hquiet hstep
    exact (ih (hshows.busy.trans hb) hquiet hrun).trans hshows

/-- Settles O43: every step of the run shows the results of the state before it (`showsResultsOf_step`). -/
theorem resultsStayUntilNextStart : Obligations.ResultsStayUntilNextStart := by
  intro k s t hb hquiet hrun
  have hshows := showsResultsOf_stepsTo hb hquiet hrun
  exact ⟨hshows.busy.trans hb, fun off hoff => hshows.readWord_eq hoff⟩

end Sys2Proof.Machine
end

section
/-! PROOFS. The address space of the host port: refused transactions, reserved offsets, and the windows of the two buffers
(20_memory.md R63 to R69). -/

namespace Sys2Proof.Machine

/-! Accepted and refused transactions (20_memory.md R63, R64). -/

theorem toNat_extractLsb'_low (offset : BitVec 14) : (offset.extractLsb' 0 2).toNat = offset.toNat % 4 :=
  BitVec.extractLsb'_toNat 0 2 offset

theorem not_accepted_of_bad {offset : BitVec 14} {size : Nat} (h : size ≠ 4 ∨ offset.extractLsb' 0 2 ≠ 0#2) :
    ¬accepted offset size = true := by
  intro hacc
  obtain ⟨hsize, halign⟩ := accepted_iff.mp hacc
  rcases h with h | h
  · exact h hsize
  · exact h (BitVec.eq_of_toNat_eq ((toNat_extractLsb'_low offset).trans halign))

/-- Settles O44: a read has no effect, and the port's checks refuse the rest. -/
theorem badTransactionChangesNothing : Obligations.BadTransactionChangesNothing := by
  intro s offset size w
  refine ⟨effectOf_read s offset size, fun hbad => ?_⟩
  have hacc := not_accepted_of_bad hbad
  exact ⟨if_neg hacc, if_neg hacc, if_neg hacc⟩

section
variable {offset : BitVec 14} (s : State) (w : Word) (halign : offset.toNat % 4 = 0)
include halign

theorem answerTo_read_of_aligned :
    s.answerTo (.read offset 4) = { resp := .okay, rdata := some (s.readWord offset.toNat) } :=
  if_pos (accepted_iff.mpr ⟨rfl, halign⟩)

theorem answerTo_write_of_aligned : s.answerTo (.write offset 4 w) = { resp := .okay, rdata := none } :=
  if_pos (accepted_iff.mpr ⟨rfl, halign⟩)

theorem effectOf_write_of_aligned : s.effectOf (.write offset 4 w) = s.writeWord offset.toNat w :=
  if_pos (accepted_iff.mpr ⟨rfl, halign⟩)

end

/-! What an offset addresses (20_memory.md R62, R67). -/

theorem offset_lt_bank (r : Reg) : r.offset < 0x40 := by cases r <;> decide

theorem ofOffset_eq_none {off : Nat} (h : 0x40 ≤ off) : Reg.ofOffset off = none := by
  cases hr : Reg.ofOffset off with
  | none => rfl
  | some r =>
    have hoff := ofOffset_eq_some.mp hr
    have hlt := offset_lt_bank r
    omega

/-- The reserved offsets: the page above the registers, the offsets above the windows, and in each window the words at or
past MSG_BYTES. -/
theorem target_eq_reserved {p : Params} {off : Nat}
    (h : (0x40 ≤ off ∧ off < 0x1000) ∨ 0x3000 ≤ off ∨
      (0x1000 ≤ off ∧ off < 0x2000 ∧ p.msgBytes ≤ off - 0x1000) ∨
      (0x2000 ≤ off ∧ off < 0x3000 ∧ p.msgBytes ≤ off - 0x2000)) : target p off = .reserved := by
  unfold target
  rcases h with ⟨hlo, hhi⟩ | h | ⟨hlo, hhi, hcap⟩ | ⟨hlo, hhi, hcap⟩
  · rw [if_pos hhi, ofOffset_eq_none hlo]
  · rw [if_neg (by omega), if_neg (by omega), if_neg (by omega)]
  · rw [if_neg (by omega), if_pos hhi, if_neg (by omega)]
  · rw [if_neg (by omega), if_neg (by omega), if_pos hhi, if_neg (by omega)]

theorem target_ibufWindow {p : Params} {off : Nat} (hlo : 0x1000 ≤ off) (hhi : off < 0x2000)
    (hcap : off - 0x1000 < p.msgBytes) : target p off = .ibufWord ((off - 0x1000) / 4) := by
  rw [target, if_neg (by omega), if_pos hhi, if_pos hcap]

theorem target_obufWindow {p : Params} {off : Nat} (hlo : 0x2000 ≤ off) (hhi : off < 0x3000)
    (hcap : off - 0x2000 < p.msgBytes) : target p off = .obufWord ((off - 0x2000) / 4) := by
  rw [target, if_neg (by omega), if_neg (by omega), if_pos hhi, if_pos hcap]

/-- The whole OBUF window ignores writes, its words past MSG_BYTES too (20_memory.md R67, R69). -/
theorem obufWindow_ignoresWrites (p : Params) {off : Nat} (hlo : 0x2000 ≤ off) (hhi : off < 0x3000) :
    (target p off).ignoresWrites = true := by
  by_cases hcap : off - 0x2000 < p.msgBytes
  · rw [target_obufWindow hlo hhi hcap]
    rfl
  · rw [target_eq_reserved (by omega)]
    rfl

/-! Writes that are ignored at all times (20_memory.md R65). -/

theorem readWord_of_reserved {s : State} {off : Nat} (h : target s.params off = .reserved) : s.readWord off = 0#32 := by
  rw [State.readWord, h]

theorem writeWord_of_ignoresWrites {s : State} {off : Nat} (h : (target s.params off).ignoresWrites = true) (w : Word) :
    s.writeWord off w = s := by
  unfold State.writeWord
  cases htarget : target s.params off with
  | reg r =>
    rw [htarget] at h
    cases r with
    | id | cap | olen | dout0 | dout1 => rfl
    | _ => cases h
  | ibufWord j => cases htarget ▸ h
  | obufWord j | reserved => rfl

/-- An aligned write that its target ignores is answered OKAY and has no effect. -/
theorem write_ignored {s : State} {offset : BitVec 14} (halign : offset.toNat % 4 = 0)
    (h : (target s.params offset.toNat).ignoresWrites = true) (w : Word) :
    s.answerTo (.write offset 4 w) = { resp := .okay, rdata := none } ∧ s.effectOf (.write offset 4 w) = s :=
  ⟨answerTo_write_of_aligned s w halign,
    (effectOf_write_of_aligned s w halign).trans (writeWord_of_ignoresWrites h w)⟩

theorem ignoresWrites_of_reg (p : Params) {r : Reg} (h : (Target.reg r).ignoresWrites = true) :
    (target p r.offset).ignoresWrites = true := by rwa [target_eq_reg.mpr rfl]

/-- Settles O45: the offsets named are reserved, a read-only register or the OBUF window. -/
theorem reservedReadsZeroIgnoresWrites : Obligations.ReservedReadsZeroIgnoresWrites := by
  intro s offset w halign
  constructor
  · intro h
    have htarget := target_eq_reserved h
    have hread : s.answerTo (.read offset 4) = { resp := .okay, rdata := some 0#32 } := by
      rw [answerTo_read_of_aligned s halign, readWord_of_reserved htarget]
    exact ⟨hread, write_ignored halign (htarget ▸ rfl) w⟩
  · intro h
    refine write_ignored halign ?_ w
    rcases h with rfl | rfl | rfl | rfl | rfl | ⟨hlo, hhi⟩
    · exact ignoresWrites_of_reg s.params (r := .id) rfl
    · exact ignoresWrites_of_reg s.params (r := .cap) rfl
    · exact ignoresWrites_of_reg s.params (r := .olen) rfl
    · exact ignoresWrites_of_reg s.params (r := .dout0) rfl
    · exact ignoresWrites_of_reg s.params (r := .dout1) rfl
    · exact obufWindow_ignoresWrites s.params hlo hhi

/-! The windows (20_memory.md R66, R68, R69). -/

/-- The state with a window word stored in IBUF, most significant byte first: what an idle core's write of it does
(`effectOf_write_ibufWord`). -/
def State.storeIbufWord (s : State) (j : Nat) (w : Word) : State :=
  { s with ibuf := s.ibuf.storeBytes (4 * j) (unbe32 w) }

/-- BE32 undoes UNBE32 (41_word_datapath.md R148). -/
theorem be32_unbe32 (w : Word) : be32 (unbe32 w) = w := by
  apply BitVec.eq_of_toNat_eq
  have hw := w.isLt
  simp only [be32, unbe32, List.getD_cons_zero, List.getD_cons_succ, BitVec.toNat_ofNat, BitVec.extractLsb'_toNat,
    Nat.shiftRight_eq_div_pow]
  omega

section
variable {p : Params} {j : Nat} (hwf : p.wf = true) (hj : 4 * j < p.msgBytes)
include hwf hj

/-- A window word is at a 14-bit offset: a window is 4 KiB, and no legal capacity exceeds it (00_scope.md R6). -/
theorem toNat_windowOffset {base : Nat} (hbase : base ≤ 0x3000) :
    (BitVec.ofNat 14 (base + 4 * j)).toNat = base + 4 * j := by
  obtain ⟨-, -, hcap, -⟩ := params_wf hwf
  rw [BitVec.toNat_ofNat, Nat.mod_eq_of_lt (by omega)]

theorem target_ibufWord : target p (0x1000 + 4 * j) = .ibufWord j := by
  obtain ⟨-, -, hcap, -⟩ := params_wf hwf
  rw [target_ibufWindow (by omega) (by omega) (by omega), Nat.add_sub_cancel_left, Nat.mul_div_cancel_left j (by decide)]

theorem target_obufWord : target p (0x2000 + 4 * j) = .obufWord j := by
  obtain ⟨-, -, hcap, -⟩ := params_wf hwf
  rw [target_obufWindow (by omega) (by omega) (by omega), Nat.add_sub_cancel_left, Nat.mul_div_cancel_left j (by decide)]

end

section
variable {s : State} {j : Nat} (hwf : s.params.wf = true) (hj : 4 * j < s.params.msgBytes)
include hwf hj

theorem answerTo_read_ibufWord : s.answerTo (.read (BitVec.ofNat 14 (0x1000 + 4 * j)) 4) = Answer.mk .okay (some
    (be32 [s.ibufByte (4 * j), s.ibufByte (4 * j + 1), s.ibufByte (4 * j + 2), s.ibufByte (4 * j + 3)])) := by
  have hoff := toNat_windowOffset hwf hj (base := 0x1000) (by decide)
  rw [answerTo_read_of_aligned s (by omega), hoff, State.readWord, target_ibufWord hwf hj]
  rfl

theorem effectOf_write_ibufWord (w : Word) : s.effectOf (.write (BitVec.ofNat 14 (0x1000 + 4 * j)) 4 w) =
    locked s fun t => t.storeIbufWord j w := by
  have hoff := toNat_windowOffset hwf hj (base := 0x1000) (by decide)
  rw [effectOf_write_of_aligned s w (by omega), hoff, State.writeWord, target_ibufWord hwf hj]
  rfl

theorem answerTo_read_obufWord : s.answerTo (.read (BitVec.ofNat 14 (0x2000 + 4 * j)) 4) = Answer.mk .okay (some
    (s.maskedWhileBusy
      (be32 [s.obufByte (4 * j), s.obufByte (4 * j + 1), s.obufByte (4 * j + 2), s.obufByte (4 * j + 3)]))) := by
  have hoff := toNat_windowOffset hwf hj (base := 0x2000) (by decide)
  rw [answerTo_read_of_aligned s (by omega), hoff, State.readWord, target_obufWord hwf hj]
  rfl

end

theorem ibufByte_storeIbufWord (s : State) (j : Nat) (w : Word) {i : Nat} (hi : i < 4) :
    (s.storeIbufWord j w).ibufByte (4 * j + i) = (unbe32 w).getD i 0#8 := by
  rw [State.storeIbufWord, State.ibufByte_storeBytes, length_unbe32, if_pos (by omega), Nat.add_sub_cancel_left]

theorem ibufByte_storeIbufWord_of_outside (s : State) (j : Nat) (w : Word) {a : Nat} (ha : a < 4 * j ∨ 4 * j + 4 ≤ a) :
    (s.storeIbufWord j w).ibufByte a = s.ibufByte a := by
  rw [State.storeIbufWord, State.ibufByte_storeBytes, length_unbe32, if_neg (by omega)]

/-- Settles O46: the read and the write of the window word, with the laws of a stored word and `be32_unbe32` for the
read-back. -/
theorem ibufWindowIsBigEndian : Obligations.IbufWindowIsBigEndian := by
  intro s j w hwf hj
  refine ⟨answerTo_read_ibufWord hwf hj, fun hb => ?_, fun hb => ?_⟩
  · have h0 := ibufByte_storeIbufWord s j w (i := 0) (by decide)
    have h1 := ibufByte_storeIbufWord s j w (i := 1) (by decide)
    have h2 := ibufByte_storeIbufWord s j w (i := 2) (by decide)
    have h3 := ibufByte_storeIbufWord s j w (i := 3) (by decide)
    rw [Nat.add_zero] at h0
    have hread := answerTo_read_ibufWord (s := s.storeIbufWord j w) hwf hj
    rw [h0, h1, h2, h3] at hread
    rw [effectOf_write_ibufWord hwf hj, locked_of_idle hb]
    exact ⟨_, rfl, rfl, h0, h1, h2, h3, fun a ha => ibufByte_storeIbufWord_of_outside s j w ha,
      hread.trans (congrArg (fun v => Answer.mk .okay (some v)) (be32_unbe32 w))⟩
  · rw [effectOf_write_ibufWord hwf hj, locked_of_busy hb, Status.lostWrite, hb]

/-- Settles O47: the read is masked while busy, and the window ignores writes. -/
theorem obufWindowReadsWhenIdle : Obligations.ObufWindowReadsWhenIdle := by
  intro s j w hwf hj
  have hoff := toNat_windowOffset hwf hj (base := 0x2000) (by decide)
  refine ⟨answerTo_read_obufWord hwf hj, write_ignored (by omega) ?_ w⟩
  rw [hoff, target_obufWord hwf hj]
  rfl

end Sys2Proof.Machine
end

section
/-! PROOFS. The command words (30_encoding.md R90 to R93): the two fields as numbers, decoding as the inverse of
encoding, and what the Core's turn of a running core does with a word of either kind. -/

namespace Sys2Proof.Machine

theorem toNat_opField (w : Word) : (opField w).toNat = w.toNat % 16 := BitVec.extractLsb'_toNat 0 4 w

theorem toNat_rsvField (w : Word) : (rsvField w).toNat = w.toNat / 16 := by
  have hw := w.isLt
  rw [rsvField, BitVec.extractLsb'_toNat, Nat.shiftRight_eq_div_pow]
  omega

theorem rsvField_eq_zero {w : Word} : rsvField w = 0#28 ↔ w.toNat / 16 = 0 := by
  rw [← BitVec.toNat_inj, toNat_rsvField]
  rfl

theorem decode_encode (i : Instr) : decode (encode i) = .ok i := by cases i <;> rfl

/-- With RSV = 0 a word is the number in its field OP, so the OP value that decodes to a command gives the word. -/
theorem eq_encode_of_decode {w : Word} {i : Instr} (h : decode w = .ok i) : w = encode i := by
  unfold decode at h
  split_ifs at h with hrsv
  have hword : w.toNat = (opField w).toNat := by
    have hzero := rsvField_eq_zero.mp (not_not.mp hrsv)
    rw [toNat_opField]
    omega
  split at h <;> cases h <;> next hop => exact BitVec.eq_of_toNat_eq (hword.trans hop)

/-- "Decoding is by exact match of all 32 bits" (30_encoding.md R92). -/
theorem decode_eq_ok {w : Word} {i : Instr} : decode w = .ok i ↔ w = encode i :=
  ⟨eq_encode_of_decode, fun h => h ▸ decode_encode i⟩

/-- A word decodes exactly when RSV = 0 and OP is one of 1 to 6 (30_encoding.md R92). -/
theorem exists_decode_eq_ok {w : Word} :
    (∃ i, decode w = .ok i) ↔ w.toNat / 16 = 0 ∧ 1 ≤ w.toNat % 16 ∧ w.toNat % 16 ≤ 6 := by
  simp only [decode_eq_ok]
  constructor
  · rintro ⟨i, rfl⟩
    cases i <;> decide
  · rintro ⟨hrsv, hlo, hhi⟩
    have hop : w.toNat = 1 ∨ w.toNat = 2 ∨ w.toNat = 3 ∨ w.toNat = 4 ∨ w.toNat = 5 ∨ w.toNat = 6 := by omega
    rcases hop with h | h | h | h | h | h
    · exact ⟨.encBlock, BitVec.eq_of_toNat_eq h⟩
    · exact ⟨.decBlock, BitVec.eq_of_toNat_eq h⟩
    · exact ⟨.ecbEnc, BitVec.eq_of_toNat_eq h⟩
    · exact ⟨.ecbDec, BitVec.eq_of_toNat_eq h⟩
    · exact ⟨.pad, BitVec.eq_of_toNat_eq h⟩
    · exact ⟨.unpad, BitVec.eq_of_toNat_eq h⟩

/-- The three ways to be illegal (30_encoding.md R93). -/
theorem exists_decode_eq_error {w : Word} (h : w.toNat / 16 ≠ 0 ∨ w.toNat % 16 = 0 ∨ 7 ≤ w.toNat % 16) :
    ∃ e, decode w = .error e := by
  cases hdec : decode w with
  | error e => exact ⟨e, rfl⟩
  | ok i =>
    obtain ⟨hrsv, hlo, hhi⟩ := exists_decode_eq_ok.mp ⟨i, hdec⟩
    omega

theorem coreTurn_of_decode_ok {s : State} {i : Instr} (hb : s.status.busy = true) (h : decode s.cmdreg = .ok i) :
    coreTurn s = exec i s := by
  rw [coreTurn_of_busy hb, completionStep, h]

theorem coreTurn_of_decode_error {s : State} {e : DecodeError} (hb : s.status.busy = true)
    (h : decode s.cmdreg = .error e) : coreTurn s = raiseError .invalidCommand s := by
  rw [coreTurn_of_busy hb, completionStep, h]
  rfl

/-- Settles O1: the six words are those of the commands; the reserved OP values are a table of ten. -/
theorem opcodeMapOfTable : Obligations.OpcodeMapOfTable :=
  ⟨⟨decode_encode .encBlock, decode_encode .decBlock, decode_encode .ecbEnc, decode_encode .ecbDec,
    decode_encode .pad, decode_encode .unpad⟩, by decide⟩

/-- Settles O3: decoding inverts encoding, and the word is looked at by the Core's turn alone. -/
theorem validWordsDecodeExactly : Obligations.ValidWordsDecodeExactly :=
  ⟨fun _ => exists_decode_eq_ok, fun _ _ => decode_eq_ok, fun _ _ hb => effectOf_reg_of_idle (r := .cmd) hb rfl,
    fun _ hb => ⟨fun _ => coreTurn_of_decode_ok hb, fun _ => coreTurn_of_decode_error hb⟩⟩

/-- Settles O4: an illegal word decodes to an error, and raising it changes STATUS only. -/
theorem illegalWordChangesOnlyStatus : Obligations.IllegalWordChangesOnlyStatus := by
  intro s hb hillegal
  obtain ⟨e, he⟩ := exists_decode_eq_error hillegal
  rw [coreTurn_of_decode_error hb he]
  rfl

end Sys2Proof.Machine
end

section
/-! PROOFS. The frame of the commands (30_encoding.md R94): the inputs by the forms a command's next state can have, and
OBUF past the result of a message command. -/

namespace Sys2Proof.Machine

/-- Settles O30: neither form of a command's next state (`exec_cases`) changes an input. -/
theorem commandsKeepInputs : Obligations.CommandsKeepInputs := by
  intro i s t h
  have hwbusy := exec_wbusy h
  rcases exec_cases h with ⟨-, b, rfl⟩ | ⟨-, v, n, f, -, -, -, rfl⟩
  · exact ⟨rfl, rfl, rfl, rfl, rfl, rfl, rfl, rfl, fun _ => rfl, rfl, rfl, rfl, hwbusy⟩
  · exact ⟨rfl, rfl, rfl, rfl, rfl, rfl, rfl, rfl, fun _ => rfl, rfl, rfl, rfl, hwbusy⟩

/-- OBUF reads in t as it does in s at every index from n on. -/
def State.KeepsObufFrom (s t : State) (n : Nat) : Prop := ∀ a, n ≤ a → t.obufByte a = s.obufByte a

/-- A string stored at the start of OBUF leaves the bytes past it (10_state.md R37). -/
theorem keepsObufFrom_of_stored {s t : State} {v : Bytes} {n : Nat} (hobuf : t.obuf = s.obuf.storeBytes 0 v)
    (hdraw : t.draw = s.draw) (hlen : v.length ≤ n) : s.KeepsObufFrom t n := by
  intro a ha
  rw [State.obufByte_congr (s := { s with obuf := s.obuf.storeBytes 0 v }) hobuf hdraw, State.obufByte_storeBytes,
    if_neg (by omega)]

theorem keepsObufFrom_of_failMessage {e : ErrorKind} {s t : State} (h : failMessage e s = .next t) (n : Nat) :
    s.KeepsObufFrom t n := by
  rw [failMessage_eq_next] at h
  subst h
  exact keepsObufFrom_of_stored (v := []) rfl rfl (Nat.zero_le n)

/-- A result that fits a legal buffer has a length that fits OLEN, so OLEN is where it ends. -/
theorem keepsObufFrom_of_finishMessage {s t : State} {v : Bytes} (hwf : s.params.wf = true)
    (h : finishMessage s v = .next t) : s.KeepsObufFrom t t.olen.toNat := by
  obtain ⟨-, -, hcap, -⟩ := params_wf hwf
  obtain ⟨hlen, rfl⟩ := finishMessage_eq_next.mp h
  refine keepsObufFrom_of_stored rfl rfl (Nat.le_of_eq ?_)
  rw [BitVec.toNat_ofNat, Nat.mod_eq_of_lt (by omega)]

/-- A message command that checks the length first keeps OBUF from n on when its work on the message does. -/
theorem keepsObufFrom_of_checked {c : Prop} [Decidable c] {e : ErrorKind} {s t : State} {len n : Nat}
    {k : Bytes → Host.Outcome State Fault Refusal}
    (h : (if c then failMessage e s else andThen (readIbuf s 0 len) k) = .next t)
    (hk : ∀ d, k d = .next t → s.KeepsObufFrom t n) : s.KeepsObufFrom t n := by
  split at h
  · exact keepsObufFrom_of_failMessage h n
  · obtain ⟨d, -, h⟩ := andThen_eq_next.mp h
    exact hk d h

theorem keepsObufFrom_of_execUnpad {s t : State} (hwf : s.params.wf = true) (h : execUnpad s = .next t) :
    s.KeepsObufFrom t t.olen.toNat := by
  refine keepsObufFrom_of_checked h fun d h => ?_
  split at h
  · exact keepsObufFrom_of_failMessage h _
  · exact keepsObufFrom_of_finishMessage hwf h

/-- ECB_DEC stores as many bytes as it decrypts, and then keeps OBUF whatever their padding (45_ecb_driver.md R224). -/
theorem keepsObufFrom_of_execEcbDec {s t : State} (h : execEcbDec s = .next t) : s.KeepsObufFrom t s.messageLength := by
  unfold execEcbDec at h
  split_ifs at h with hlong h8 h0
  · exact keepsObufFrom_of_failMessage h _
  · exact keepsObufFrom_of_failMessage h _
  · exact keepsObufFrom_of_failMessage h _
  · obtain ⟨c, hc, h⟩ := andThen_eq_next.mp h
    obtain ⟨-, rfl⟩ := readIbuf_eq_next.mp hc
    obtain ⟨x, hx, h⟩ := andThen_eq_next.mp h
    obtain ⟨-, rfl⟩ := writeObuf_eq_next.mp hx
    have hlen := length_ecbDecryptBlocks (c := s.message) s.key s.roundCount (by rw [length_message]; omega)
    rw [length_message] at hlen
    split at h
    next =>
      rw [failMessage_eq_next] at h
      subst h
      exact keepsObufFrom_of_stored rfl rfl hlen.le
    next =>
      rw [complete_eq_next] at h
      subst h
      exact keepsObufFrom_of_stored rfl rfl hlen.le

theorem keepsObufFrom_of_exec {i : Instr} {s t : State} (hi : isBlockCommand i = false) (hwf : s.params.wf = true)
    (h : exec i s = .next t) : s.KeepsObufFrom t (if i = .ecbDec then s.ilen.toNat else t.olen.toNat) := by
  cases i with
  | encBlock | decBlock => cases hi
  | ecbEnc => exact keepsObufFrom_of_checked h fun _ => keepsObufFrom_of_finishMessage hwf
  | ecbDec => exact keepsObufFrom_of_execEcbDec h
  | pad => exact keepsObufFrom_of_checked h fun _ => keepsObufFrom_of_finishMessage hwf
  | unpad => exact keepsObufFrom_of_execUnpad hwf h

/-- Settles O31: a block command changes DOUT and STATUS only; a message command leaves DOUT, and stores in OBUF what
`keepsObufFrom_of_exec` bounds. -/
theorem commandsKeepOtherResults : Obligations.CommandsKeepOtherResults := by
  intro i s t h
  constructor
  · intro hi
    rcases exec_cases h with ⟨-, b, rfl⟩ | ⟨hi', -⟩
    · exact ⟨rfl, fun _ => rfl⟩
    · cases hi.symm.trans hi'
  · intro hi
    refine ⟨?_, fun a ha hwf => keepsObufFrom_of_exec hi hwf h a ha⟩
    rcases exec_cases h with ⟨hi', -⟩ | ⟨-, v, n, f, -, -, -, rfl⟩
    · cases hi.symm.trans hi'
    · rfl

end Sys2Proof.Machine
end

section
/-! PROOFS. The start of a command and the busy lock: what a write and a read do while a command runs, and the ways into
and out of running (40_sequencer.md R110 to R116). -/

namespace Sys2Proof.Machine

/-- Settles O36: the Core's turn of a running core executes what its latch decodes to, and no event of the schedule but
the turn itself is taken. -/
theorem stepRunsDecodedCommand : Obligations.StepRunsDecodedCommand := by
  intro s i hb hi
  refine ⟨fun rest h => ?_, fun h => ?_⟩
  · exact (step_of_core h).trans (coreTurn_of_decode_ok (s := s.setSchedule rest) hb hi)
  · exact (step_of_nil h).trans (coreTurn_of_decode_ok hb hi)

/-- Settles O38: CMD is a locked register, and the core is idle. -/
theorem cmdWriteStartsCommand : Obligations.CmdWriteStartsCommand := by
  intro s w hb
  exact ⟨answerTo_write_of_aligned s w rfl, effectOf_reg_of_idle (r := .cmd) hb rfl⟩

/-! The busy lock (40_sequencer.md R112, R113). -/

/-- A write of a locked target is lost while the core is busy. -/
theorem writeWord_of_isLocked {s : State} {off : Nat} (hb : s.status.busy = true)
    (h : (target s.params off).isLocked = true) (w : Word) :
    s.writeWord off w = { s with status := s.status.lostWrite } := by
  unfold State.writeWord
  cases htarget : target s.params off with
  | reg r =>
    rw [htarget] at h
    cases r with
    | id | cap | ctrl | status | olen | dout0 | dout1 => cases h
    | _ => simp only [State.writeReg, locked_of_busy hb]
  | ibufWord j => exact locked_of_busy hb _
  | obufWord j | reserved => cases htarget ▸ h

/-- Settles O39: a locked target loses the write, a target that ignores writes does so here too, and CTRL and STATUS are
no locked registers. -/
theorem busyLockLosesWrites : Obligations.BusyLockLosesWrites := by
  intro s offset w hb halign
  refine ⟨answerTo_write_of_aligned s w halign, fun h => ?_, fun h => (write_ignored halign h w).2, ?_, ?_⟩
  · rw [effectOf_write_of_aligned s w halign, writeWord_of_isLocked hb h, Status.lostWrite, hb]
  · rintro rfl
    exact effectOf_reg s .ctrl w
  · rintro rfl
    exact effectOf_reg s .status w

/-! What the host reads of a running core (40_sequencer.md R114). -/

theorem maskedWhileBusy_of_busy {s : State} (h : s.status.busy = true) (w : Word) : s.maskedWhileBusy w = 0#32 := by
  simp [State.maskedWhileBusy, h]

theorem readWord_of_isResult_of_busy {s : State} {off : Nat} (hb : s.status.busy = true)
    (h : (target s.params off).isResult = true) : s.readWord off = 0#32 := by
  unfold State.readWord
  cases htarget : target s.params off with
  | reg r =>
    rw [htarget] at h
    cases r with
    | olen | dout0 | dout1 => exact maskedWhileBusy_of_busy hb _
    | _ => cases h
  | obufWord j => exact maskedWhileBusy_of_busy hb _
  | ibufWord j | reserved => cases htarget ▸ h

/-- Only STATUS itself and the results, masked while BUSY = 1, depend on the flags. -/
theorem readWord_withStatus (s : State) {off : Nat} (f : Status) (h : (target s.params off).isResult = false)
    (hoff : off ≠ Reg.status.offset) : State.readWord { s with status := f } off = s.readWord off := by
  unfold State.readWord
  cases htarget : target s.params off with
  | reg r =>
    rw [htarget] at h
    cases r with
    | olen | dout0 | dout1 => cases h
    | status => exact absurd (target_eq_reg.mp htarget) hoff
    | _ => rfl
  | obufWord j => cases htarget ▸ h
  | ibufWord j | reserved => rfl

/-- Settles O40: the results are masked, STATUS is a register, and no other read depends on the flags. -/
theorem busyReadsHideResults : Obligations.BusyReadsHideResults := by
  intro s off
  refine ⟨readWord_of_isResult_of_busy, fun _ h hoff => (readWord_withStatus s _ h hoff).symm, ?_,
    rfl, rfl, rfl, rfl, rfl⟩
  rintro rfl
  exact readWord_reg s .status

/-! Into running and out of it (40_sequencer.md R110). -/

/-- A transaction that makes an idle core run is a 4-byte write of CMD, and it starts the command. -/
theorem effectOf_of_starts {s : State} {t : Transaction} (hidle : s.status.busy = false)
    (hrun : (s.effectOf t).status.busy = true) :
    ∃ w, t = .write 0x010#14 4 w ∧ s.effectOf t = startCommand w s := by
  rcases effectOf_cases s t with e | ⟨offset, w, rfl, -, e⟩ <;> rw [e] at hrun ⊢
  · cases hidle.symm.trans hrun
  · rcases writeWord_cases s offset.toNat w with
      ⟨c, n, l, k, d, e⟩ | ⟨-, e⟩ | ⟨-, e⟩ | ⟨hoff, -, e⟩ | ⟨j, -, -, e⟩ <;> rw [e] at hrun ⊢
    · cases hidle.symm.trans hrun
    · cases hidle.symm.trans hrun
    · cases hidle.symm.trans hrun
    · have hoffset : offset = 0x010#14 := BitVec.eq_of_toNat_eq hoff
      exact ⟨w, by rw [hoffset], rfl⟩
    · cases hidle.symm.trans hrun

/-- No transaction ends a running command. -/
theorem effectOf_busy {s : State} (h : s.status.busy = true) (t : Transaction) : (s.effectOf t).status.busy = true := by
  rcases effectOf_of_busy h t with e | e | ⟨w, e⟩ | ⟨w, e⟩ <;> rw [e] <;> exact h

/-- Settles O37: the Core's turn leaves an idle core idle and a transaction a running core running; a reset makes it
idle. -/
theorem idleAndRunningTransitions : Obligations.IdleAndRunningTransitions := by
  intro s t hstep
  rcases step_cases s with ⟨x, rest, hs, e⟩ | ⟨rest, hs, e⟩ | ⟨rest, hs, e⟩ | ⟨hs, e⟩ <;> rw [e] at hstep
  · cases hstep
    refine ⟨fun hidle hrun => ?_, fun hrun hidle => ?_⟩
    · obtain ⟨w, rfl, heffect⟩ := effectOf_of_starts (s := s.setSchedule rest) hidle hrun
      exact ⟨w, rest, hs, congrArg State.cmdreg heffect⟩
    · cases hidle.symm.trans (effectOf_busy (s := s.setSchedule rest) hrun x)
  · cases hstep
    exact ⟨fun _ hrun => absurd hrun Bool.false_ne_true, fun _ _ => .inr (.inr ⟨rest, hs⟩)⟩
  · refine ⟨fun hidle hrun => ?_, fun _ _ => .inr (.inl ⟨rest, hs⟩)⟩
    cases (coreTurn_of_idle (s := s.setSchedule rest) hidle).symm.trans hstep
    cases hidle.symm.trans hrun
  · refine ⟨fun hidle hrun => ?_, fun _ _ => .inl hs⟩
    cases (coreTurn_of_idle hidle).symm.trans hstep
    cases hidle.symm.trans hrun

end Sys2Proof.Machine
end

section
/-! PROOFS. What a command writes is a function of what it reads (30_encoding.md R94; 40_sequencer.md R120): two runs of
a command from states that agree on what it reads, side by side. -/

namespace Sys2Proof.Machine

/-- A command ends with BUSY = 0 and DONE = 1 (40_sequencer.md R115). -/
theorem exec_completes {i : Instr} {s t : State} (h : exec i s = .next t) :
    t.status.busy = false ∧ t.status.done = true := by
  rcases exec_cases h with ⟨-, b, rfl⟩ | ⟨-, v, n, f, -, -, hf, rfl⟩
  · exact ⟨rfl, rfl⟩
  · rcases hf with rfl | ⟨-, e, rfl⟩ <;> exact ⟨rfl, rfl⟩

/-- Two runs of a message command, from s to t and from s' to t', that store the same string v from index 0 of OBUF, put
the same length n in OLEN, and report the same code. -/
structure EndAlike (v : Bytes) (n : Nat) (s t s' t' : State) : Prop where
  length_le : n ≤ v.length
  olen : t.olen = BitVec.ofNat 32 n
  olen' : t'.olen = BitVec.ofNat 32 n
  obuf : t.obuf = s.obuf.storeBytes 0 v
  obuf' : t'.obuf = s'.obuf.storeBytes 0 v
  errcode : t'.status.errcode = t.status.errcode

/-- A string stored from index 0 of OBUF reads back there. -/
theorem obufBytes_of_stored {s t : State} {v : Bytes} (h : t.obuf = s.obuf.storeBytes 0 v) {n : Nat}
    (hn : n ≤ v.length) : t.obufBytes 0 n = v.take n := by
  apply List.ext_getElem (by simp [hn])
  intro a ha _
  rw [State.length_obufBytes] at ha
  have hv : a < v.length := by omega
  simp [State.obufBytes, State.obufByte, h, Memory.lookup_storeBytes, hv]

theorem EndAlike.obufBytes_eq {v : Bytes} {n : Nat} {s t s' t' : State} (h : EndAlike v n s t s' t') {m : Nat}
    (hm : m ≤ v.length) : t'.obufBytes 0 m = t.obufBytes 0 m :=
  (obufBytes_of_stored h.obuf' hm).trans (obufBytes_of_stored h.obuf hm).symm

theorem EndAlike.olen_le {v : Bytes} {n : Nat} {s t s' t' : State} (h : EndAlike v n s t s' t') :
    t.olen.toNat ≤ v.length := by
  rw [h.olen, BitVec.toNat_ofNat]
  exact (Nat.mod_le _ _).trans h.length_le

section
variable {s t s' t' : State}

theorem endAlike_of_failMessage {e : ErrorKind} (h : failMessage e s = .next t)
    (h' : failMessage e s' = .next t') : EndAlike [] 0 s t s' t' := by
  rw [failMessage_eq_next] at h h'
  subst h h'
  exact ⟨Nat.le_refl _, rfl, rfl, rfl, rfl, rfl⟩

theorem messageLength_congr (hilen : s'.ilen = s.ilen) : s'.messageLength = s.messageLength :=
  congrArg BitVec.toNat hilen

theorem roundCount_congr (hrounds : s'.rounds = s.rounds) : s'.roundCount = s.roundCount :=
  congrArg BitVec.toNat hrounds

/-- The message is read alike where the capacity, the length and the bytes agree. -/
theorem readIbuf_message_congr (hilen : s'.ilen = s.ilen) (hparams : s'.params = s.params)
    (hmsg : s'.message = s.message) : readIbuf s' 0 s.messageLength = readIbuf s 0 s.messageLength := by
  rw [State.message, messageLength_congr hilen] at hmsg
  rw [readIbuf, hparams, hmsg]
  rfl

/-- The common shape of the message commands: the same length check, then the same bytes worked on. -/
theorem endAlike_of_checked {c : Prop} [Decidable c] {e : ErrorKind} {o : Host.Outcome Bytes Fault Refusal}
    {k k' : Bytes → Host.Outcome State Fault Refusal}
    (h : (if c then failMessage e s else andThen o k) = .next t)
    (h' : (if c then failMessage e s' else andThen o k') = .next t')
    (hk : ∀ d, k d = .next t → k' d = .next t' → ∃ v n, EndAlike v n s t s' t') :
    ∃ v n, EndAlike v n s t s' t' := by
  split at h
  next hc => exact ⟨_, _, endAlike_of_failMessage h ((if_pos hc).symm.trans h')⟩
  next hc =>
    rw [if_neg hc] at h'
    obtain ⟨d, hd, h⟩ := andThen_eq_next.mp h
    obtain ⟨d', hd', h'⟩ := andThen_eq_next.mp h'
    cases hd.symm.trans hd'
    exact hk d h h'

variable (hcode : s'.status.errcode = s.status.errcode)
include hcode

theorem endAlike_of_finishMessage {v : Bytes} (h : finishMessage s v = .next t) (h' : finishMessage s' v = .next t') :
    ∃ v n, EndAlike v n s t s' t' := by
  obtain ⟨-, rfl⟩ := finishMessage_eq_next.mp h
  obtain ⟨-, rfl⟩ := finishMessage_eq_next.mp h'
  exact ⟨v, v.length, Nat.le_refl _, rfl, rfl, rfl, rfl, hcode⟩

variable (hilen : s'.ilen = s.ilen) (hparams : s'.params = s.params) (hmsg : s'.message = s.message)
include hilen hparams hmsg

theorem endAlike_of_execPad (h : execPad s = .next t) (h' : execPad s' = .next t') :
    ∃ v n, EndAlike v n s t s' t' := by
  simp only [execPad, hparams, messageLength_congr hilen, readIbuf_message_congr hilen hparams hmsg] at h'
  exact endAlike_of_checked h h' fun _ => endAlike_of_finishMessage hcode

theorem endAlike_of_execUnpad (h : execUnpad s = .next t) (h' : execUnpad s' = .next t') :
    ∃ v n, EndAlike v n s t s' t' := by
  simp only [execUnpad, hparams, messageLength_congr hilen, readIbuf_message_congr hilen hparams hmsg] at h'
  refine endAlike_of_checked h h' fun d h h' => ?_
  cases hu : unpadBytes d with
  | none =>
    rw [hu] at h h'
    exact ⟨_, _, endAlike_of_failMessage h h'⟩
  | some u =>
    rw [hu] at h h'
    exact endAlike_of_finishMessage hcode h h'

variable (hkey : s'.key = s.key) (hrounds : s'.rounds = s.rounds)
include hkey hrounds

theorem endAlike_of_execEcbEnc (h : execEcbEnc s = .next t) (h' : execEcbEnc s' = .next t') :
    ∃ v n, EndAlike v n s t s' t' := by
  simp only [execEcbEnc, hparams, messageLength_congr hilen, hkey, roundCount_congr hrounds,
    readIbuf_message_congr hilen hparams hmsg] at h'
  exact endAlike_of_checked h h' fun _ => endAlike_of_finishMessage hcode

/-- Past its length checks ECB_DEC stores the whole ciphertext's length, the padding good or bad (45_ecb_driver.md
R224). -/
theorem endAlike_of_execEcbDec (h : execEcbDec s = .next t) (h' : execEcbDec s' = .next t') :
    ∃ v n, EndAlike v n s t s' t' ∧
      (s.messageLength ≤ s.params.msgBytes → s.messageLength % 8 = 0 → s.messageLength ≤ v.length) := by
  simp only [execEcbDec, hparams, messageLength_congr hilen, hkey, roundCount_congr hrounds,
    readIbuf_message_congr hilen hparams hmsg] at h h'
  split_ifs at h h' with hlong h8 h0
  · exact ⟨_, _, endAlike_of_failMessage h h', fun hfits => by omega⟩
  · exact ⟨_, _, endAlike_of_failMessage h h', fun _ hblocks => by omega⟩
  · exact ⟨_, _, endAlike_of_failMessage h h', fun _ _ => by omega⟩
  · obtain ⟨c, hc, h⟩ := andThen_eq_next.mp h
    obtain ⟨c', hc', h'⟩ := andThen_eq_next.mp h'
    cases hc.symm.trans hc'
    obtain rfl : c = s.message := (readIbuf_eq_next.mp hc).2
    obtain ⟨x, hx, h⟩ := andThen_eq_next.mp h
    obtain ⟨-, rfl⟩ := writeObuf_eq_next.mp hx
    obtain ⟨x', hx', h'⟩ := andThen_eq_next.mp h'
    obtain ⟨-, rfl⟩ := writeObuf_eq_next.mp hx'
    have hq := length_ecbDecryptBlocks (c := s.message) s.key s.roundCount (by rw [length_message]; omega)
    rw [length_message] at hq
    cases hu : unpadBytes (ecbDecryptBlocks s.message s.key s.roundCount) with
    | none =>
      simp only [hu, failMessage_eq_next] at h h'
      subst h h'
      exact ⟨_, 0, ⟨Nat.zero_le _, rfl, rfl, rfl, rfl, rfl⟩, fun _ _ => hq.ge⟩
    | some u =>
      simp only [hu, complete_eq_next] at h h'
      subst h h'
      exact ⟨_, u.length, ⟨length_le_of_unpadBytes hu, rfl, rfl, rfl, rfl, hcode⟩, fun _ _ => hq.ge⟩

end

section
variable {i : Instr} {s t s' t' : State} (hreads : SameReads i s s') (h : exec i s = .next t)
  (h' : exec i s' = .next t')
include hreads h h'

/-- A block command's result is a function of the block, the key and the round count (43_block_cipher.md R185, R186). -/
theorem dout_eq_of_exec (hi : isBlockCommand i = true) : t'.dout = t.dout := by
  cases i with
  | encBlock =>
    obtain ⟨hdin, hkey, hrounds⟩ := hreads
    simp only [exec, execEncBlock, complete_eq_next] at h h'
    simp only [h, h', State.setDout_dout, hdin, hkey, roundCount_congr hrounds]
  | decBlock =>
    obtain ⟨hdin, hkey, hrounds⟩ := hreads
    simp only [exec, execDecBlock, complete_eq_next] at h h'
    simp only [h, h', State.setDout_dout, hdin, hkey, roundCount_congr hrounds]
  | ecbEnc | ecbDec | pad | unpad => cases hi

variable (hcode : s'.status.errcode = s.status.errcode)
include hcode

theorem endAlike_of_exec (hi : isBlockCommand i = false) : ∃ v n, EndAlike v n s t s' t' := by
  cases i with
  | encBlock | decBlock => cases hi
  | ecbEnc =>
    obtain ⟨hilen, hparams, hmsg, hkey, hrounds⟩ := hreads
    exact endAlike_of_execEcbEnc hcode hilen hparams hmsg hkey hrounds h h'
  | ecbDec =>
    obtain ⟨hilen, hparams, hmsg, hkey, hrounds⟩ := hreads
    obtain ⟨v, n, hend, -⟩ := endAlike_of_execEcbDec hcode hilen hparams hmsg hkey hrounds h h'
    exact ⟨v, n, hend⟩
  | pad =>
    obtain ⟨hilen, hparams, hmsg⟩ := hreads
    exact endAlike_of_execPad hcode hilen hparams hmsg h h'
  | unpad =>
    obtain ⟨hilen, hparams, hmsg⟩ := hreads
    exact endAlike_of_execUnpad hcode hilen hparams hmsg h h'

/-- A block command leaves ERRCODE; a message command reports the same code in both runs. -/
theorem errcode_eq_of_exec : t'.status.errcode = t.status.errcode := by
  rcases exec_cases h with ⟨hi, b, rfl⟩ | ⟨hi, -⟩
  · rcases exec_cases h' with ⟨-, b', rfl⟩ | ⟨hi', -⟩
    · exact hcode
    · cases hi.symm.trans hi'
  · obtain ⟨v, n, hend⟩ := endAlike_of_exec hreads h h' hcode hi
    exact hend.errcode

end

/-- Settles O34: a block command's DOUT is a function of its operands, and two runs of a message command store the same
string (`EndAlike`), in which the bytes up to OLEN, and those of ECB_DEC up to ILEN, lie. -/
theorem resultsDependOnReadsOnly : Obligations.ResultsDependOnReadsOnly := by
  intro i s s' t t' hreads hcode h h'
  obtain ⟨hbusy, hdone⟩ := exec_completes h
  obtain ⟨hbusy', hdone'⟩ := exec_completes h'
  refine ⟨errcode_eq_of_exec hreads h h' hcode, hbusy'.trans hbusy.symm, hdone'.trans hdone.symm,
    dout_eq_of_exec hreads h h', fun hi => ?_, fun hi hfits h8 => ?_⟩
  · obtain ⟨v, n, hend⟩ := endAlike_of_exec hreads h h' hcode hi
    exact ⟨hend.olen'.trans hend.olen.symm, hend.obufBytes_eq hend.olen_le⟩
  · subst hi
    obtain ⟨hilen, hparams, hmsg, hkey, hrounds⟩ := hreads
    obtain ⟨v, n, hend, hv⟩ := endAlike_of_execEcbDec hcode hilen hparams hmsg hkey hrounds h h'
    exact hend.obufBytes_eq (hv hfits h8)

end Sys2Proof.Machine
end

section
/-! PROOFS. The completion of a running command: whatever the host does before it, the command finds the same inputs and
leaves the same results, and it comes at the latest when the schedule is used up (40_sequencer.md R113, R119, R120). -/

namespace Sys2Proof.Machine

/-- A running core completes in the Core's turn, its word legal or not (40_sequencer.md R115). -/
theorem coreTurn_completes {s t : State} (hb : s.status.busy = true) (h : coreTurn s = .next t) :
    t.status.busy = false ∧ t.status.done = true := by
  rcases coreTurn_cases h with ⟨hidle, -⟩ | ⟨-, i, -, hexec⟩ | ⟨-, -, rfl⟩
  · cases hidle.symm.trans hb
  · exact exec_completes hexec
  · exact ⟨rfl, rfl⟩

theorem exists_coreTurn_completes {s : State} (hwf : s.params.wf = true) (hb : s.status.busy = true) :
    ∃ t, coreTurn s = .next t ∧ t.status.busy = false ∧ t.status.done = true := by
  obtain ⟨t, ht⟩ := coreTurn_answers hwf
  exact ⟨t, ht, coreTurn_completes hb ht⟩

/-- The schedule plays no part in a transaction. -/
theorem transact_setSchedule (t : Transaction) (s : State) (rest : List Event) :
    transact t (s.setSchedule rest) = (transact t s).setSchedule rest := by
  rw [transact, effectOf_setSchedule, answerTo_setSchedule]
  rfl

/-! The Core's turn does not depend on what the host did before it. -/

/-- t runs the same command on the same inputs as s, and holds the same results. -/
structure State.SameRun (s t : State) : Prop where
  busy : t.status.busy = s.status.busy
  inputs : s.SameInputs t
  results : s.SameResults t

theorem State.SameInputs.refl (s : State) : s.SameInputs s := ⟨rfl, rfl, rfl, rfl, rfl, rfl, rfl, rfl⟩

theorem State.SameInputs.trans {s t u : State} (hst : s.SameInputs t) (htu : t.SameInputs u) : s.SameInputs u := by
  obtain ⟨hparams, hkey, hdin, hrounds, hilen, hibuf, hdraw, hcmdreg⟩ := hst
  obtain ⟨hparams', hkey', hdin', hrounds', hilen', hibuf', hdraw', hcmdreg'⟩ := htu
  exact ⟨hparams'.trans hparams, hkey'.trans hkey, hdin'.trans hdin, hrounds'.trans hrounds, hilen'.trans hilen,
    hibuf'.trans hibuf, hdraw'.trans hdraw, hcmdreg'.trans hcmdreg⟩

theorem State.SameInputs.params_eq {s t : State} (h : s.SameInputs t) : t.params = s.params := h.1

theorem State.SameInputs.cmdreg_eq {s t : State} (h : s.SameInputs t) : t.cmdreg = s.cmdreg := by
  obtain ⟨-, -, -, -, -, -, -, hcmdreg⟩ := h
  exact hcmdreg

theorem State.SameInputs.symm {s t : State} (h : s.SameInputs t) : t.SameInputs s := by
  obtain ⟨hparams, hkey, hdin, hrounds, hilen, hibuf, hdraw, hcmdreg⟩ := h
  exact ⟨hparams.symm, hkey.symm, hdin.symm, hrounds.symm, hilen.symm, hibuf.symm, hdraw.symm, hcmdreg.symm⟩

theorem State.SameRun.refl (s : State) : s.SameRun s := ⟨rfl, .refl s, .refl s⟩

theorem State.SameRun.setSchedule {s t : State} (h : s.SameRun t) (es : List Event) :
    (s.setSchedule es).SameRun (t.setSchedule es) := ⟨h.busy, h.inputs, h.results⟩

theorem State.SameRun.trans {s t u : State} (hst : s.SameRun t) (htu : t.SameRun u) : s.SameRun u :=
  ⟨htu.busy.trans hst.busy, hst.inputs.trans htu.inputs, hst.results.trans htu.results⟩

/-- The busy lock: a transaction of a running core reaches CTRL, DONE and WBUSY only (40_sequencer.md R112, R113). -/
theorem sameRun_transact {s : State} (hb : s.status.busy = true) (t : Transaction) : s.SameRun (transact t s) := by
  have heffect : s.SameRun (s.effectOf t) := by
    rcases effectOf_of_busy hb t with e | e | ⟨w, e⟩ | ⟨w, e⟩ <;> rw [e]
    · exact .refl s
    · exact ⟨rfl, .refl s, .refl s⟩
    · exact ⟨rfl, .refl s, .refl s⟩
    · exact ⟨rfl, .refl s, .refl s⟩
  exact ⟨heffect.busy, heffect.inputs, heffect.results⟩

/-- The host's transactions, performed one after the other. -/
def State.afterHost (s : State) (hs : List Transaction) : State := hs.foldl (fun u t => transact t u) s

theorem sameRun_afterHost {s : State} (hb : s.status.busy = true) (hs : List Transaction) :
    s.SameRun (s.afterHost hs) := by
  induction hs generalizing s with
  | nil => exact .refl s
  | cons t hs ih =>
    have ht := sameRun_transact hb t
    exact ht.trans (ih (ht.busy.trans hb))

/-- A schedule that begins with transactions performs them. -/
theorem stepsTo_hostEvents (s : State) (hs : List Transaction) (k : Nat) (es : List Event) :
    stepsTo (hs.length + k) (s.setSchedule (hs.map Event.host ++ es)) =
      stepsTo k ((s.afterHost hs).setSchedule es) := by
  induction hs generalizing s with
  | nil => rw [List.length_nil, Nat.zero_add]; rfl
  | cons t hs ih =>
    rw [List.length_cons, Nat.succ_add, stepsTo_succ, step_of_host rfl, andThen_next]
    exact (congrArg _ (transact_setSchedule t s _)).trans (ih (transact t s))

/-- The inputs determine what every command reads (30_encoding.md R94). -/
theorem sameReads_of_sameInputs {s t : State} (h : s.SameInputs t) (i : Instr) : SameReads i s t := by
  obtain ⟨hparams, hkey, hdin, hrounds, hilen, hibuf, hdraw, -⟩ := h
  have hmsg : t.message = s.message := by
    rw [State.message, messageLength_congr hilen, State.ibufBytes_congr hibuf hdraw]
    rfl
  cases i with
  | encBlock | decBlock => exact ⟨hdin, hkey, hrounds⟩
  | ecbEnc | ecbDec => exact ⟨hilen, hparams, hmsg, hkey, hrounds⟩
  | pad | unpad => exact ⟨hilen, hparams, hmsg⟩

theorem sameInputs_of_exec {i : Instr} {s t : State} (h : exec i s = .next t) : s.SameInputs t := by
  obtain ⟨hparams, -, hrounds, hilen, hkey, hdin, hcmdreg, hibuf, -, hdraw, -⟩ := commandsKeepInputs i s t h
  exact ⟨hparams, hkey, hdin, hrounds, hilen, hibuf, hdraw, hcmdreg⟩

theorem sameInputs_of_coreTurn {s t : State} (h : coreTurn s = .next t) : s.SameInputs t := by
  rcases coreTurn_cases h with ⟨-, rfl⟩ | ⟨-, i, -, hexec⟩ | ⟨-, -, rfl⟩
  · exact .refl _
  · exact sameInputs_of_exec hexec
  · exact .refl _

section
variable {s s' t t' : State}

/-- A command run on the same inputs, over the same earlier results, gives the same results. -/
theorem sameResults_of_exec {i : Instr} (hinputs : s.SameInputs s') (hresults : s.SameResults s')
    (h : exec i s = .next t) (h' : exec i s' = .next t') : t.SameResults t' := by
  have hreads := sameReads_of_sameInputs hinputs i
  obtain ⟨hdout, holen, hobuf, hdraw, hcode⟩ := hresults
  have hcode' := errcode_eq_of_exec hreads h h' hcode
  rcases exec_cases h with ⟨hi, b, ht⟩ | ⟨hi, v, n, f, -, -, -, ht⟩
  · have hdout' := dout_eq_of_exec hreads h h' hi
    rcases exec_cases h' with ⟨-, b', ht'⟩ | ⟨hi', -⟩
    · subst ht ht'
      exact ⟨hdout', holen, hobuf, hdraw, hcode'⟩
    · cases hi.symm.trans hi'
  · obtain ⟨x, m, hend⟩ := endAlike_of_exec hreads h h' hcode hi
    have holen' := hend.olen'.trans hend.olen.symm
    have hobuf' : t'.obuf = t.obuf := by rw [hend.obuf', hend.obuf, hobuf]
    rcases exec_cases h' with ⟨hi', -⟩ | ⟨-, v', n', f', -, -, -, ht'⟩
    · cases hi.symm.trans hi'
    · subst ht ht'
      exact ⟨hdout, holen', hobuf', hdraw, hcode'⟩

/-- The completion steps of two such running cores give the same results, the word legal or not. -/
theorem sameResults_of_coreTurn (hb : s.status.busy = true) (hrun : s.SameRun s') (h : coreTurn s = .next t)
    (h' : coreTurn s' = .next t') : t.SameResults t' := by
  obtain ⟨hbusy, hinputs, hresults⟩ := hrun
  have hb' := hbusy.trans hb
  have hcmdreg := hinputs.cmdreg_eq
  cases hdec : decode s.cmdreg with
  | ok i =>
    rw [coreTurn_of_decode_ok hb hdec] at h
    rw [coreTurn_of_decode_ok hb' (hcmdreg ▸ hdec)] at h'
    exact sameResults_of_exec hinputs hresults h h'
  | error e =>
    rw [coreTurn_of_decode_error hb hdec, raiseError_eq_next] at h
    rw [coreTurn_of_decode_error hb' (hcmdreg ▸ hdec), raiseError_eq_next] at h'
    subst h h'
    obtain ⟨hdout, holen, hobuf, hdraw, -⟩ := hresults
    exact ⟨hdout, holen, hobuf, hdraw, rfl⟩

end

/-- The Core's turn, alone in the schedule. -/
theorem stepsTo_core {s u : State} (h : coreTurn (s.setSchedule []) = .next u) :
    stepsTo 1 (s.setSchedule [.core]) = .next u := by
  rw [stepsTo_succ, step_of_core rfl, andThen_eq_next]
  exact ⟨u, h, rfl⟩

/-- Settles O41: the transactions leave the run as it was (`sameRun_afterHost`), and the Core's turns of two like runs
give the same results. -/
theorem completionTimeDoesNotMatter : Obligations.CompletionTimeDoesNotMatter := by
  intro s hs hinv hb
  have hrun := (sameRun_afterHost hb hs).setSchedule []
  obtain ⟨u, hu, -⟩ := exists_coreTurn_completes (s := s.setSchedule []) hinv.params hb
  obtain ⟨t, ht, hidle, hdone⟩ := exists_coreTurn_completes (hrun.inputs.params_eq ▸ hinv.params) (hrun.busy.trans hb)
  refine ⟨t, u, (stepsTo_hostEvents s hs 1 [.core]).trans (stepsTo_core ht), stepsTo_core hu, ?_,
    sameResults_of_coreTurn (s := s.setSchedule []) hb hrun hu ht, hidle, hdone⟩
  exact (sameInputs_of_coreTurn hu).symm.trans (hrun.inputs.trans (sameInputs_of_coreTurn ht))

/-! Completion (40_sequencer.md R119). -/

/-- A run completes when its first step is the Core's turn. -/
theorem stepsTo_one_completes {s x : State} (hwf : x.params.wf = true) (hb : x.status.busy = true)
    (hstep : step s = coreTurn x) : ∃ t, stepsTo 1 s = .next t ∧ t.status.busy = false ∧ t.status.done = true := by
  obtain ⟨t, ht, hdone⟩ := exists_coreTurn_completes hwf hb
  exact ⟨t, by rw [stepsTo_succ, hstep, ht]; rfl, hdone⟩

theorem completes_within {s : State} {es : List Event} (hwf : s.params.wf = true) (hb : s.status.busy = true)
    (hreset : Event.reset ∉ es) (hs : s.schedule = es) :
    ∃ k t, k ≤ es.length + 1 ∧ stepsTo k s = .next t ∧ t.status.busy = false ∧ t.status.done = true := by
  induction es generalizing s with
  | nil =>
    obtain ⟨t, ht⟩ := stepsTo_one_completes hwf hb (step_of_nil hs)
    exact ⟨1, t, Nat.le_add_left _ _, ht⟩
  | cons e rest ih =>
    rw [List.mem_cons, not_or] at hreset
    obtain ⟨hne, hrest⟩ := hreset
    cases e with
    | host x =>
      have hrun := sameRun_transact (s := s.setSchedule rest) hb x
      obtain ⟨k, t, hk, hkt, hdone⟩ := ih (s := transact x (s.setSchedule rest)) (hrun.inputs.params_eq ▸ hwf)
        (hrun.busy.trans hb) hrest (by rw [transact_setSchedule]; rfl)
      refine ⟨k + 1, t, Nat.succ_le_succ hk, ?_, hdone⟩
      rw [stepsTo_succ, step_of_host hs, andThen_next, hkt]
    | core =>
      obtain ⟨t, ht⟩ := stepsTo_one_completes (x := s.setSchedule rest) hwf hb (step_of_core hs)
      exact ⟨1, t, Nat.le_add_left _ _, ht⟩
    | reset => exact absurd rfl hne

/-- Settles O42, by induction on the schedule (`completes_within`): a transaction leaves the core running, and the
Core's turn, in the schedule or after it, completes the command. -/
theorem startedCommandCompletes : Obligations.StartedCommandCompletes :=
  fun _ hinv hb hreset => completes_within hinv.params hb hreset rfl

end Sys2Proof.Machine
end

section
/-! PROOFS. The datapath primitives as arithmetic modulo 2^32 and as bits, and the laws between them: each inverse, the
two shifts, MULD one round further, and the bytes of a word (41_word_datapath.md R141 to R148). -/

namespace Sys2Proof.Machine

/-! Sums and differences (41_word_datapath.md R141, R142). -/

theorem toNat_add32 (a b : Word) : (add32 a b).toNat = (a.toNat + b.toNat) % 2 ^ 32 := BitVec.toNat_add a b

theorem toNat_sub32 (a b : Word) : (sub32 a b).toNat = (a.toNat + 2 ^ 32 - b.toNat) % 2 ^ 32 := by
  rw [sub32, BitVec.toNat_sub', Nat.add_sub_assoc b.isLt.le a.toNat]

theorem add32_comm (a b : Word) : add32 a b = add32 b a := BitVec.add_comm a b

@[simp] theorem sub32_add32 (a b : Word) : sub32 (add32 a b) b = a := BitVec.add_sub_cancel a b

/-- Settles O5: ADD32 and SUB32 as numbers, and the law that SUB32 undoes ADD32. -/
theorem addAndSubtractWrap : Obligations.AddAndSubtractWrap :=
  fun a b => ⟨toNat_add32 a b, add32_comm a b, toNat_sub32 a b, sub32_add32 a b⟩

/-! Shifts (41_word_datapath.md R144, R145). -/

theorem toNat_shl4 (y : Word) : (shl4 y).toNat = y.toNat * 16 % 2 ^ 32 := by
  rw [shl4, BitVec.toNat_shiftLeft, Nat.shiftLeft_eq]

theorem toNat_shr5 (y : Word) : (shr5 y).toNat = y.toNat / 32 := by
  rw [shr5, BitVec.toNat_ushiftRight, Nat.shiftRight_eq_div_pow]

theorem shl4_eq_append (y : Word) : shl4 y = y.extractLsb' 0 28 ++ 0#4 :=
  BitVec.shiftLeft_eq_concat_of_lt (by decide)

theorem shr5_eq_append (y : Word) : shr5 y = 0#5 ++ y.extractLsb' 5 27 :=
  BitVec.ushiftRight_eq_extractLsb'_of_lt (by decide)

/-- Settles O6: each shift as a product or quotient, and as the bits that stay joined with the zeros that enter. -/
theorem shiftsAreLogical : Obligations.ShiftsAreLogical :=
  fun y => ⟨toNat_shl4 y, shl4_eq_append y, toNat_shr5 y, shr5_eq_append y⟩

/-! The product with DELTA (41_word_datapath.md R146). -/

theorem toNat_muld (n : Nat) : (muld n).toNat = 0x9E3779B9 * n % 2 ^ 32 := BitVec.toNat_ofNat _ 32

@[simp] theorem muld_zero : muld 0 = 0#32 := rfl

theorem muld_succ (n : Nat) : muld (n + 1) = add32 (muld n) delta := by
  rw [muld, Nat.mul_succ, BitVec.ofNat_add]
  rfl

theorem muld_eq_iterate (n : Nat) : muld n = (fun x => add32 x delta)^[n] 0#32 := by
  induction n with
  | zero => rfl
  | succ n ih => rw [Function.iterate_succ_apply', ← ih, muld_succ]

/-- Settles O7: the repeated ADD32 by induction on n, each step one ADD32 of DELTA (`muld_succ`). -/
theorem muldIsRepeatedAddition : Obligations.MuldIsRepeatedAddition :=
  fun n => ⟨toNat_muld n, muld_eq_iterate n⟩

/-! The bytes of a word (41_word_datapath.md R147, R148). -/

/-- Four bytes fill a word exactly, so BE32 of them loses nothing to the reduction modulo 2^32. -/
theorem toNat_be32 (b0 b1 b2 b3 : Byte) : (be32 [b0, b1, b2, b3]).toNat =
    b0.toNat * 2 ^ 24 + b1.toNat * 2 ^ 16 + b2.toNat * 2 ^ 8 + b3.toNat := by
  rw [be32, BitVec.toNat_ofNat]
  simp only [List.getD_cons_zero, List.getD_cons_succ]
  exact Nat.mod_eq_of_lt (by omega)

/-- The byte that starts at bit `lo` of a word, found by arithmetic on the word's number. -/
theorem extractLsb'_eq_of_toNat {w : Word} {lo : Nat} {b : Byte} (h : w.toNat / 2 ^ lo % 2 ^ 8 = b.toNat) :
    w.extractLsb' lo 8 = b := by
  apply BitVec.eq_of_toNat_eq
  rw [BitVec.extractLsb'_toNat, Nat.shiftRight_eq_div_pow, h]

/-- UNBE32 undoes BE32: the four bytes are the digits of the word's number in base 2^8. -/
theorem unbe32_be32 (b0 b1 b2 b3 : Byte) : unbe32 (be32 [b0, b1, b2, b3]) = [b0, b1, b2, b3] := by
  have hword := toNat_be32 b0 b1 b2 b3
  rw [unbe32, extractLsb'_eq_of_toNat (b := b0) (by omega), extractLsb'_eq_of_toNat (b := b1) (by omega),
    extractLsb'_eq_of_toNat (b := b2) (by omega), extractLsb'_eq_of_toNat (b := b3) (by omega)]

/-- Settles O8: BE32 as a number and both inverse laws, `be32_unbe32` the one of a word. -/
theorem bigEndianWordsRoundTrip : Obligations.BigEndianWordsRoundTrip :=
  ⟨fun b0 b1 b2 b3 => ⟨toNat_be32 b0 b1 b2 b3, unbe32_be32 b0 b1 b2 b3⟩, fun w => ⟨rfl, be32_unbe32 w⟩⟩

end Sys2Proof.Machine
end

section
/-! PROOFS. The round function (42_round_function.md R160 to R167): XOR32 and RoundDelta as numbers, and the inverse of a
half round, from which the inverse of a whole round follows. -/

namespace Sys2Proof.Machine

/-! RoundDelta over the natural numbers (R160, R161). -/

theorem toNat_xor32 (a b : Word) : (xor32 a b).toNat = a.toNat ^^^ b.toNat := BitVec.toNat_xor a b

/-- Settles O9: RoundDelta XORs three words, so its number is the XOR of theirs (`toNat_xor32`), and each of these is a
sum already reduced (`toNat_add32`), the first one's SHL4 too (`toNat_shl4`). -/
theorem roundDeltaReducesBeforeXor : Obligations.RoundDeltaReducesBeforeXor := by
  intro y s ka kb
  rw [roundDelta, toNat_xor32, toNat_xor32, toNat_add32, toNat_add32, toNat_add32, toNat_shl4, toNat_shr5]

/-! Decryption undoes encryption, half by half (R163, R167). -/

/-- The half not being updated is the same before and after, so both directions use one RoundDelta. -/
@[simp] theorem decHalf_encHalf (x y s ka kb : Word) : decHalf (encHalf x y s ka kb) y s ka kb = x :=
  sub32_add32 x (roundDelta y s ka kb)

/-- DecRound restores v1 first, with the updated v0 that EncRound used for it, and then v0 with the restored v1; the
accumulator of both halves is the advanced one, and it retreats last. -/
@[simp] theorem decRound_encRound (k : Key) (m : Mix) : decRound k (encRound k m) = m := by
  simp only [encRound, decRound, decHalf_encHalf, sub32_add32]

/-- Settles O10: the two halves are undone in reverse order (`decRound_encRound`). -/
theorem decRoundInvertsEncRound : Obligations.DecRoundInvertsEncRound := decRound_encRound

end Sys2Proof.Machine
end

section
/-! PROOFS. The block functions (43_block_cipher.md R180 to R184): n rounds are one round iterated, they move the
accumulator between 0 and MULD(n), and so each block function starts where the other one ends. -/

namespace Sys2Proof.Machine

/-! Encryption undoes decryption, half by half, as `decRound_encRound` says of the other direction. -/

@[simp] theorem add32_sub32 (a b : Word) : add32 (sub32 a b) b = a := BitVec.sub_add_cancel a b

@[simp] theorem encHalf_decHalf (x y s ka kb : Word) : encHalf (decHalf x y s ka kb) y s ka kb = x :=
  add32_sub32 x (roundDelta y s ka kb)

/-- DecRound retreats the accumulator last, so EncRound's advanced one is the one that DecRound used, and EncRound
restores v0 before v1. -/
@[simp] theorem encRound_decRound (k : Key) (m : Mix) : encRound k (decRound k m) = m := by
  simp only [encRound, decRound, encHalf_decHalf, add32_sub32]

/-! The loops as iterations, and their inverse laws. -/

theorem encRounds_eq_iterate (k : Key) (n : Nat) (m : Mix) : encRounds k n m = (encRound k)^[n] m := by
  induction n with
  | zero => rfl
  | succ n ih => rw [encRounds, ih, Function.iterate_succ_apply']

theorem decRounds_eq_iterate (k : Key) (n : Nat) (m : Mix) : decRounds k n m = (decRound k)^[n] m := by
  induction n with
  | zero => rfl
  | succ n ih => rw [decRounds, ih, Function.iterate_succ_apply']

theorem decRounds_encRounds (k : Key) (n : Nat) (m : Mix) : decRounds k n (encRounds k n m) = m := by
  rw [encRounds_eq_iterate, decRounds_eq_iterate]
  exact Function.LeftInverse.iterate (decRound_encRound k) n m

theorem encRounds_decRounds (k : Key) (n : Nat) (m : Mix) : encRounds k n (decRounds k n m) = m := by
  rw [encRounds_eq_iterate, decRounds_eq_iterate]
  exact Function.LeftInverse.iterate (encRound_decRound k) n m

/-! The accumulator (43_block_cipher.md R180, R181). -/

/-- Each encryption round adds one DELTA, whatever the block and the key. -/
theorem encRounds_s (k : Key) (n : Nat) (m : Mix) : (encRounds k n m).s = add32 m.s (muld n) := by
  induction n with
  | zero => exact (BitVec.add_zero m.s).symm
  | succ n ih =>
    calc (encRounds k (n + 1) m).s
        = add32 (encRounds k n m).s delta := rfl
      _ = add32 (add32 m.s (muld n)) delta := by rw [ih]
      _ = add32 m.s (add32 (muld n) delta) := BitVec.add_assoc m.s (muld n) delta
      _ = add32 m.s (muld (n + 1)) := by rw [muld_succ]

/-- Encryption rounds from what the decryption rounds leave lead back to where these began, so the decryption rounds
took away the MULD(n) that `encRounds_s` adds. -/
theorem decRounds_s (k : Key) (n : Nat) (m : Mix) : (decRounds k n m).s = sub32 m.s (muld n) := by
  have hback : add32 (decRounds k n m).s (muld n) = m.s := by rw [← encRounds_s, encRounds_decRounds]
  rw [← hback, sub32_add32]

theorem encRounds_s_of_zero (k : Key) (b : Block) (n : Nat) : (encRounds k n { v := b, s := 0#32 }).s = muld n :=
  (encRounds_s k n _).trans (BitVec.zero_add (muld n))

theorem decRounds_s_of_muld (k : Key) (b : Block) (n : Nat) : (decRounds k n { v := b, s := muld n }).s = 0#32 :=
  (decRounds_s k n _).trans (BitVec.sub_self (muld n))

/-- Settles O11: the accumulator of n rounds from any start (`encRounds_s`, `decRounds_s`), at the starts 0
and MULD(n). -/
theorem accumulatorAfterRounds : Obligations.AccumulatorAfterRounds :=
  fun k b n => ⟨encRounds_s_of_zero k b n, decRounds_s_of_muld k b n⟩

/-! The block functions undo each other (43_block_cipher.md R182). -/

/-- The loop of EncryptBlock ends in the start of DecryptBlock's loop. -/
theorem encRounds_of_zero (k : Key) (b : Block) (n : Nat) :
    encRounds k n { v := b, s := 0#32 } = { v := encryptBlock b k n, s := muld n } := by
  rw [← encRounds_s_of_zero k b n, encryptBlock]

/-- The loop of DecryptBlock ends in the start of EncryptBlock's loop. -/
theorem decRounds_of_muld (k : Key) (b : Block) (n : Nat) :
    decRounds k n { v := b, s := muld n } = { v := decryptBlock b k n, s := 0#32 } := by
  rw [← decRounds_s_of_muld k b n, decryptBlock]

@[simp] theorem decryptBlock_encryptBlock (b : Block) (k : Key) (n : Nat) :
    decryptBlock (encryptBlock b k n) k n = b := by
  rw [decryptBlock, ← encRounds_of_zero, decRounds_encRounds]

@[simp] theorem encryptBlock_decryptBlock (b : Block) (k : Key) (n : Nat) :
    encryptBlock (decryptBlock b k n) k n = b := by
  rw [encryptBlock, ← decRounds_of_muld, encRounds_decRounds]

/-- Settles O12: each loop starts where the other one ends (`encRounds_of_zero`, `decRounds_of_muld`) and undoes it
round by round. -/
theorem decryptInvertsEncrypt : Obligations.DecryptInvertsEncrypt :=
  fun b k n => ⟨decryptBlock_encryptBlock b k n, encryptBlock_decryptBlock b k n⟩

/-! No rounds (43_block_cipher.md R184). -/

@[simp] theorem encryptBlock_zero (b : Block) (k : Key) : encryptBlock b k 0 = b := rfl

@[simp] theorem decryptBlock_zero (b : Block) (k : Key) : decryptBlock b k 0 = b := rfl

/-- Settles O13: a loop of no rounds is its start. -/
theorem zeroRoundsAreIdentity : Obligations.ZeroRoundsAreIdentity :=
  fun b k => ⟨encryptBlock_zero b k, decryptBlock_zero b k⟩

end Sys2Proof.Machine
end

section
/-! PROOFS. The block commands (43_block_cipher.md R185, R186): the state each one answers. -/

namespace Sys2Proof.Machine

/-- ENC_BLOCK writes DOUT, and the end of the command BUSY and DONE (`complete_eq_next`). -/
theorem exec_encBlock (s : State) : exec .encBlock s =
    .next { s with dout := encryptBlock s.din s.key s.rounds.toNat, status := s.status.completed } :=
  complete_eq_next.mpr rfl

/-- DEC_BLOCK writes DOUT, and the end of the command BUSY and DONE (`complete_eq_next`). -/
theorem exec_decBlock (s : State) : exec .decBlock s =
    .next { s with dout := decryptBlock s.din s.key s.rounds.toNat, status := s.status.completed } :=
  complete_eq_next.mpr rfl

/-- Settles O14: the word is the command's encoding, `exec_encBlock` is the state, and N = 0 is a loop of no rounds. -/
theorem encBlockCompletes : Obligations.EncBlockCompletes :=
  fun s => ⟨decode_encode .encBlock, exec_encBlock s, fun h => by rw [h, BitVec.toNat_zero, encryptBlock_zero]⟩

/-- Settles O15: the word is the command's encoding, `exec_decBlock` is the state, and N = 0 is a loop of no rounds. -/
theorem decBlockCompletes : Obligations.DecBlockCompletes :=
  fun s => ⟨decode_encode .decBlock, exec_decBlock s, fun h => by rw [h, BitVec.toNat_zero, decryptBlock_zero]⟩

end Sys2Proof.Machine
end

section
/-! PROOFS. The padding functions (44_padding_codec.md R200 to R203), Unpad by one equivalence that says when it answers;
and the commands PAD and UNPAD (R204, R205) on a message that fits. -/

namespace Sys2Proof.Machine

/-- Pad fills the string up to the end of the block after its last whole one (44_padding_codec.md R201). -/
theorem length_padBytes_eq_blocks (d : Bytes) : (padBytes d).length = 8 * (d.length / 8 + 1) := by
  rw [length_padBytes]; unfold padCount; omega

/-- Settles O16: the length law, and the bytes appended are the definition's, `padCount` of them. -/
theorem paddingGrowsToBlocks : Obligations.PaddingGrowsToBlocks := by
  intro d
  have hlen := length_padBytes_eq_blocks d
  exact ⟨hlen, by omega, by omega, _, padCount_pos _, padCount_le _, rfl⟩

/-! Unpad answers exactly on a padded string (44_padding_codec.md R202). -/

/-- What Unpad accepts it takes apart: what it answers, then as many pad bytes as the last byte says. -/
theorem eq_append_replicate_of_unpadBytes {d u : Bytes} (h : unpadBytes d = some u) :
    ∃ n : Nat, 1 ≤ n ∧ n ≤ 8 ∧ d = u ++ List.replicate n (BitVec.ofNat 8 n) := by
  simp only [unpadBytes] at h
  split_ifs at h with h0 hrange hlen hall
  cases h
  generalize d.getD (d.length - 1) 0#8 = p at hrange hlen hall ⊢
  have htail : d.drop (d.length - p.toNat) = List.replicate p.toNat p := by
    rw [List.eq_replicate_iff, List.length_drop]
    exact ⟨by omega, by simpa using hall⟩
  refine ⟨p.toNat, by omega, by omega, ?_⟩
  rw [BitVec.ofNat_toNat, BitVec.setWidth_eq, ← htail, List.take_append_drop]

/-- The last byte of a padded string is its pad byte. -/
theorem getD_append_replicate_last (u : Bytes) {n : Nat} (hn : 1 ≤ n) (p : Byte) :
    (u ++ List.replicate n p).getD (u.length + n - 1) 0#8 = p := by
  rw [List.getD_append_right _ _ _ _ (by omega), List.getD_replicate _ (by omega)]

/-- A padded string passes each of Unpad's checks. -/
theorem unpadBytes_append_replicate (u : Bytes) {n : Nat} (h1 : 1 ≤ n) (h8 : n ≤ 8) :
    unpadBytes (u ++ List.replicate n (BitVec.ofNat 8 n)) = some u := by
  have hp : (BitVec.ofNat 8 n).toNat = n := by rw [BitVec.toNat_ofNat, Nat.mod_eq_of_lt (by omega)]
  simp only [unpadBytes, List.length_append, List.length_replicate, getD_append_replicate_last u h1, hp,
    Nat.add_sub_cancel, List.drop_left, List.take_left]
  rw [if_neg (by omega), if_neg (by omega), if_neg (by omega), if_pos (by simp)]

theorem unpadBytes_eq_some {d u : Bytes} :
    unpadBytes d = some u ↔ ∃ n : Nat, 1 ≤ n ∧ n ≤ 8 ∧ d = u ++ List.replicate n (BitVec.ofNat 8 n) := by
  constructor
  · exact eq_append_replicate_of_unpadBytes
  · rintro ⟨n, h1, h8, rfl⟩
    exact unpadBytes_append_replicate u h1 h8

/-- Settles O18. -/
theorem unpadAcceptsExactlyPadding : Obligations.UnpadAcceptsExactlyPadding := fun _ _ => unpadBytes_eq_some

@[simp] theorem unpadBytes_padBytes (d : Bytes) : unpadBytes (padBytes d) = some d :=
  unpadBytes_append_replicate d (padCount_pos _) (padCount_le _)

/-- Settles O17: what Pad makes is a padded string, which Unpad accepts. -/
theorem unpadInvertsPad : Obligations.UnpadInvertsPad := unpadBytes_padBytes

/-! The commands. -/

/-- A message command that succeeds with a result v that fits a legal buffer: v stands in OBUF, its length in OLEN, and
everything else but BUSY and DONE is as before (40_sequencer.md R115). -/
theorem finishMessage_completes {s : State} {v : Bytes} (hwf : s.params.wf = true)
    (hfits : v.length ≤ s.params.msgBytes) :
    ∃ t, finishMessage s v = .next t ∧ s.KeepsInputs t ∧ s.CompletedWith t s.status.errcode ∧ t.dout = s.dout ∧
      t.olen.toNat = v.length ∧ t.obufBytes 0 v.length = v ∧ s.KeepsObufFrom t v.length := by
  obtain ⟨-, -, hcap, -⟩ := params_wf hwf
  have holen : (BitVec.ofNat 32 v.length).toNat = v.length := by rw [BitVec.toNat_ofNat, Nat.mod_eq_of_lt (by omega)]
  refine ⟨_, finishMessage_of_le hfits, ?_, rfl, rfl, holen, ?_, keepsObufFrom_of_stored rfl rfl (Nat.le_refl _)⟩
  · exact ⟨rfl, rfl, rfl, rfl, rfl, rfl, rfl, rfl, fun _ => rfl, rfl, rfl, rfl, rfl⟩
  · rw [obufBytes_of_stored rfl (Nat.le_refl _), List.take_length]

/-- PAD past its length check. -/
theorem exec_pad_of_lt {s : State} (h : s.messageLength < s.params.msgBytes) :
    exec .pad s = finishMessage s (padBytes s.message) := by
  rw [exec, execPad, if_neg (by omega), readIbuf_message h.le, andThen_next]

/-- UNPAD past its length check: it fails where Unpad does, and else finishes with Unpad's answer. -/
theorem exec_unpad_of_le {s : State} (h : s.messageLength ≤ s.params.msgBytes) :
    exec .unpad s = (unpadBytes s.message).elim (failMessage .invalidPadding s) (finishMessage s) := by
  rw [exec, execUnpad, if_neg (by omega), readIbuf_message h, andThen_next]
  cases unpadBytes s.message <;> rfl

/-- Settles O19: the padded message fits, the capacity being a multiple of 8, so PAD finishes with it. -/
theorem padCompletes : Obligations.PadCompletes := by
  intro s hwf hlt
  have hfits : (padBytes s.message).length ≤ s.params.msgBytes := length_padBytes_message_le hwf (Nat.not_le.mpr hlt)
  have hlen : (padBytes s.message).length = 8 * (s.ilen.toNat / 8 + 1) := by
    rw [length_padBytes_eq_blocks, length_message]; rfl
  obtain ⟨t, ht, hinputs, hstatus, hdout, holen, hobuf, hrest⟩ := finishMessage_completes hwf hfits
  rw [← holen] at hobuf hrest
  exact ⟨t, (exec_pad_of_lt hlt).trans ht, hinputs, hstatus, hdout, holen.trans hlen, hobuf, hrest⟩

/-- Settles O20: Unpad's answer is no longer than the message, so UNPAD finishes with it. -/
theorem unpadCompletes : Obligations.UnpadCompletes := by
  intro s u hwf hle hu
  have hfits : u.length ≤ s.params.msgBytes := by
    have hshort := length_le_of_unpadBytes hu
    rw [State.length_ibufBytes] at hshort
    exact hshort.trans hle
  have hexec : exec .unpad s = finishMessage s u :=
    (exec_unpad_of_le hle).trans (congrArg (Option.elim · _ _) hu)
  rw [hexec]
  exact finishMessage_completes hwf hfits

/-- Settles O21: UNPAD fails where Unpad does, and INVALID_PADDING has code 2 (60_exceptions.md R261, R263). -/
theorem unpadReportsBadPadding : Obligations.UnpadReportsBadPadding := by
  intro s hle hu
  have hexec : exec .unpad s = failMessage .invalidPadding s :=
    (exec_unpad_of_le hle).trans (congrArg (Option.elim · _ _) hu)
  exact hexec.trans (failMessage_eq_next.mpr rfl)

end Sys2Proof.Machine
end

section
/-! PROOFS. The ECB functions (45_ecb_driver.md R220 to R222): a block loop answers, at the place of each block, f of that
block; so two loops one after the other are one loop, and a loop that changes no block gives the whole blocks back. -/

namespace Sys2Proof.Machine

/-! One block of what a block loop answers (R222). -/

/-- The results of a block loop are 8 bytes each, so the one of block j stands at 8j. -/
theorem slice_mapBlocks (f : Block → Block) {d : Bytes} {j : Nat} (h : j < d.length / 8) :
    slice (mapBlocks f d) (8 * j) (8 * j + 8) = blockBytes (f (blockAt d j)) := by
  have hblock := List.drop_take_succ_flatten_eq_getElem
    ((List.range (d.length / 8)).map fun j => blockBytes (f (blockAt d j))) j (by simpa using h)
  have hlengths : (List.range (d.length / 8)).map (List.length ∘ fun j => blockBytes (f (blockAt d j))) =
      List.replicate (d.length / 8) 8 := by simp [List.eq_replicate_iff]
  have hstart : min j (d.length / 8) * 8 = 8 * j := by omega
  have hend : min (j + 1) (d.length / 8) * 8 = 8 * j + 8 := by omega
  rw [List.map_map, hlengths, List.take_replicate, List.take_replicate, List.sum_replicate_nat,
    List.sum_replicate_nat, hstart, hend, List.drop_take, ← List.flatMap_def] at hblock
  simpa [slice, mapBlocks] using hblock

@[simp] theorem blockAt_blockBytes (b : Block) : blockAt (blockBytes b) 0 = b := by
  show Block.mk (be32 (unbe32 b.v0)) (be32 (unbe32 b.v1)) = b
  rw [be32_unbe32, be32_unbe32]

theorem blockAt_mapBlocks (f : Block → Block) {d : Bytes} {j : Nat} (h : j < d.length / 8) :
    blockAt (mapBlocks f d) j = f (blockAt d j) := by
  rw [← blockAt_slice, slice_mapBlocks f h, blockAt_blockBytes]

/-- A block is a function of its 8 bytes. -/
theorem blockAt_congr {d : Bytes} {i j : Nat} (h : slice d (8 * i) (8 * i + 8) = slice d (8 * j) (8 * j + 8)) :
    blockAt d i = blockAt d j := by
  rw [← blockAt_slice, h, blockAt_slice]

/-- Settles O22: block j of a block loop's answer is f of block j (`slice_mapBlocks`), for both functions. -/
theorem ecbBlocksAreIndependent : Obligations.EcbBlocksAreIndependent := by
  intro d c k n j
  refine ⟨fun hj => slice_mapBlocks _ hj, fun hj => slice_mapBlocks _ hj, fun i hi hj heq => ?_⟩
  rw [ecbEncrypt, slice_mapBlocks _ hi, slice_mapBlocks _ hj, blockAt_congr heq]

/-! Decryption undoes encryption block by block (R220, R221). -/

theorem mapBlocks_mapBlocks (f g : Block → Block) (d : Bytes) :
    mapBlocks g (mapBlocks f d) = mapBlocks (fun b => g (f b)) d := by
  have hcount : (mapBlocks f d).length / 8 = d.length / 8 := by rw [length_mapBlocks]; omega
  rw [mapBlocks, hcount]
  exact List.flatMap_congr fun j hj => by rw [blockAt_mapBlocks f (List.mem_range.mp hj)]

theorem unbe32_be32_of_length {b : Bytes} (h : b.length = 4) : unbe32 (be32 b) = b := by
  obtain ⟨b0, b1, b2, b3, rfl⟩ := List.length_eq_four.mp h
  exact unbe32_be32 b0 b1 b2 b3

theorem slice_append_slice (d : Bytes) {a b c : Nat} (hab : a ≤ b) (hbc : b ≤ c) :
    slice d a b ++ slice d b c = slice d a c := by
  obtain ⟨m, rfl⟩ := Nat.exists_eq_add_of_le hab
  obtain ⟨n, rfl⟩ := Nat.exists_eq_add_of_le hbc
  have hsum : a + m + n - a = m + n := by omega
  simp only [slice, Nat.add_sub_cancel_left, hsum, List.take_add, List.drop_drop]

/-- The 8 bytes of a whole block of a string are the string's own (20_memory.md R70). -/
theorem blockBytes_blockAt {d : Bytes} {j : Nat} (h : 8 * j + 8 ≤ d.length) :
    blockBytes (blockAt d j) = slice d (8 * j) (8 * j + 8) := by
  have h0 : (slice d (8 * j) (8 * j + 4)).length = 4 := by rw [length_slice]; omega
  have h1 : (slice d (8 * j + 4) (8 * j + 8)).length = 4 := by rw [length_slice]; omega
  rw [blockBytes, blockAt, unbe32_be32_of_length h0, unbe32_be32_of_length h1]
  exact slice_append_slice d (by omega) (by omega)

/-- Slices of 8 bytes, one after the other, make up the string. -/
theorem flatMap_slice (d : Bytes) (m : Nat) :
    (List.range m).flatMap (fun j => slice d (8 * j) (8 * j + 8)) = slice d 0 (8 * m) := by
  induction m with
  | zero => rfl
  | succ m ih =>
    rw [List.range_succ, List.flatMap_append, ih, List.flatMap_singleton]
    exact slice_append_slice d (Nat.zero_le _) (Nat.le_add_right _ 8)

/-- A loop that changes no block gives a string of whole blocks back. -/
theorem mapBlocks_id {d : Bytes} (h8 : d.length % 8 = 0) : mapBlocks (fun b => b) d = d := by
  have hblocks : ∀ j ∈ List.range (d.length / 8), blockBytes (blockAt d j) = slice d (8 * j) (8 * j + 8) := by
    intro j hj
    rw [List.mem_range] at hj
    exact blockBytes_blockAt (by omega)
  rw [mapBlocks, List.flatMap_congr hblocks, flatMap_slice, slice, List.drop_zero]
  exact List.take_of_length_le (by omega)

/-- The two loops are one, whose every step is an encryption undone (`decryptBlock_encryptBlock`). -/
theorem ecbDecryptBlocks_ecbEncrypt (d : Bytes) (k : Key) (n : Nat) :
    ecbDecryptBlocks (ecbEncrypt d k n) k n = padBytes d := by
  simp only [ecbDecryptBlocks, ecbEncrypt, mapBlocks_mapBlocks, decryptBlock_encryptBlock]
  exact mapBlocks_id (by rw [length_padBytes_eq_blocks]; omega)

/-- Settles O23: the decrypted blocks are the padded message, which Unpad takes the padding from. -/
theorem ecbDecryptInvertsEncrypt : Obligations.EcbDecryptInvertsEncrypt := by
  intro d k n
  rw [ecbDecryptBlocks_ecbEncrypt]
  exact ⟨rfl, unpadBytes_padBytes d⟩

end Sys2Proof.Machine
end

section
/-! PROOFS. The commands ECB_ENC and ECB_DEC (45_ecb_driver.md R223 to R225): what each one does past its length checks and
where these fail, and the message given back by one after the other. -/

namespace Sys2Proof.Machine

/-! ECB_ENC. -/

/-- ECB_ENC past its length check. -/
theorem exec_ecbEnc_of_lt {s : State} (h : s.messageLength < s.params.msgBytes) :
    exec .ecbEnc s = finishMessage s (ecbEncrypt s.message s.key s.roundCount) := by
  rw [exec, execEcbEnc, if_neg (by omega), readIbuf_message h.le, andThen_next]

/-- A message that is too long makes ECB_ENC report LENGTH_OVERFLOW, so without an error it was not. -/
theorem messageLength_lt_of_exec_ecbEnc {s t : State} (h : exec .ecbEnc s = .next t)
    (hcode : t.status.errcode = 0#4) : s.messageLength < s.params.msgBytes := by
  by_contra hlong
  rw [exec, execEcbEnc, if_pos (by omega), failMessage_eq_next] at h
  subst h
  cases hcode

/-- Settles O24: the ciphertext is as long as the padded message, which fits, so ECB_ENC finishes with it. -/
theorem ecbEncCompletes : Obligations.EcbEncCompletes := by
  intro s hwf hlt
  have hlen := length_ecbEncrypt s.message s.key s.roundCount
  have hfits := hlen.trans_le (length_padBytes_message_le hwf (Nat.not_le.mpr hlt))
  have hblocks : (padBytes s.message).length = 8 * (s.ilen.toNat / 8 + 1) := by
    rw [length_padBytes_eq_blocks, length_message]; rfl
  obtain ⟨t, ht, hinputs, hstatus, hdout, holen, hobuf, hrest⟩ := finishMessage_completes hwf hfits
  rw [← holen] at hobuf hrest
  exact ⟨t, (exec_ecbEnc_of_lt hlt).trans ht, hinputs, hstatus, hdout, holen.trans (hlen.trans hblocks), hobuf, hrest⟩

/-! ECB_DEC. -/

/-- What ECB_DEC makes of the message, padding included (R224: Q). -/
def State.decrypted (s : State) : Bytes := ecbDecryptBlocks s.message s.key s.roundCount

/-- The state after ECB_DEC has stored the decrypted blocks, before it looks at their padding. -/
def State.storeDecrypted (s : State) : State := { s with obuf := s.obuf.storeBytes 0 s.decrypted }

theorem length_decrypted {s : State} (h8 : s.messageLength % 8 = 0) : s.decrypted.length = s.messageLength := by
  rw [State.decrypted, length_ecbDecryptBlocks _ _ (by rwa [length_message]), length_message]

/-- The stored blocks read back, whatever ECB_DEC then does to the other fields. -/
theorem obufBytes_of_storeDecrypted {s t : State} (h8 : s.messageLength % 8 = 0)
    (hobuf : t.obuf = s.storeDecrypted.obuf) : t.obufBytes 0 s.messageLength = s.decrypted := by
  rw [obufBytes_of_stored hobuf (length_decrypted h8).ge, ← length_decrypted h8, List.take_length]

/-- ECB_DEC past its length checks: it fails where Unpad does, and else completes with the length of Unpad's answer; the
decrypted blocks stay in OBUF either way. -/
theorem exec_ecbDec_of_blocks {s : State} (hle : s.messageLength ≤ s.params.msgBytes) (h8 : s.messageLength % 8 = 0)
    (h0 : s.messageLength ≠ 0) :
    exec .ecbDec s = (unpadBytes s.decrypted).elim (failMessage .invalidPadding s.storeDecrypted)
      (fun u => complete (s.storeDecrypted.setOlen u.length)) := by
  have hfits : 0 + s.decrypted.length ≤ s.params.msgBytes := by rwa [Nat.zero_add, length_decrypted h8]
  have hwrite : writeObuf s 0 (ecbDecryptBlocks s.message s.key s.roundCount) = .next s.storeDecrypted :=
    writeObuf_of_le hfits
  rw [exec, execEcbDec, if_neg (by omega), if_neg (by omega), if_neg h0, readIbuf_message hle]
  simp only [andThen_next, hwrite, State.decrypted]
  cases unpadBytes (ecbDecryptBlocks s.message s.key s.roundCount) <;> rfl

theorem take_length_of_unpadBytes {d u : Bytes} (h : unpadBytes d = some u) : d.take u.length = u := by
  obtain ⟨n, -, -, rfl⟩ := unpadBytes_eq_some.mp h
  exact List.take_left

/-- Settles O25: ECB_DEC completes with Unpad's answer, which is a beginning of the decrypted blocks. -/
theorem ecbDecCompletes : Obligations.EcbDecCompletes := by
  intro s u hwf hle h8 h0 hu
  obtain ⟨-, -, hcap, -⟩ := params_wf hwf
  replace hu : unpadBytes s.decrypted = some u := hu
  have hexec : exec .ecbDec s = complete (s.storeDecrypted.setOlen u.length) :=
    (exec_ecbDec_of_blocks hle h8 h0).trans (congrArg (Option.elim · _ _) hu)
  have hshort := length_le_of_unpadBytes hu
  have hlen : s.decrypted.length = s.ilen.toNat := length_decrypted h8
  have holen : (BitVec.ofNat 32 u.length).toNat = u.length := by rw [BitVec.toNat_ofNat, Nat.mod_eq_of_lt (by omega)]
  refine ⟨_, hexec, commandsKeepInputs _ _ _ hexec, rfl, rfl, holen, obufBytes_of_storeDecrypted h8 rfl, ?_,
    keepsObufFrom_of_execEcbDec hexec⟩
  rw [State.setOlen_olen, holen, obufBytes_of_stored rfl hshort, take_length_of_unpadBytes hu]

/-- Settles O26: ECB_DEC fails where Unpad does, after it stored the decrypted blocks; INVALID_PADDING has code 2. -/
theorem ecbDecReportsBadPadding : Obligations.EcbDecReportsBadPadding := by
  intro s hwf hle h8 h0 hu
  have hexec : exec .ecbDec s = failMessage .invalidPadding s.storeDecrypted :=
    (exec_ecbDec_of_blocks hle h8 h0).trans (congrArg (Option.elim · _ _) hu)
  exact ⟨_, hexec, commandsKeepInputs _ _ _ hexec, rfl, rfl, rfl, obufBytes_of_storeDecrypted h8 rfl,
    keepsObufFrom_of_execEcbDec hexec⟩

/-- ECB_DEC past its first check, of a length that is no positive number of whole blocks. -/
theorem exec_ecbDec_of_badLength {s : State} (hle : s.messageLength ≤ s.params.msgBytes)
    (hbad : s.messageLength % 8 ≠ 0 ∨ s.messageLength = 0) :
    exec .ecbDec s = failMessage .invalidCiphertextLength s := by
  rw [exec, execEcbDec, if_neg (by omega)]
  split
  next => rfl
  next h8 => exact if_pos (hbad.resolve_left h8)

/-- Settles O27: INVALID_CIPHERTEXT_LENGTH has code 1 (60_exceptions.md R261, R263). -/
theorem ecbDecReportsBadLength : Obligations.EcbDecReportsBadLength :=
  fun _ hle hbad => (exec_ecbDec_of_badLength hle hbad).trans (failMessage_eq_next.mpr rfl)

/-! ECB_ENC, then ECB_DEC (R225). -/

/-- Bytes of OBUF moved to the same indices of IBUF. -/
theorem ibufBytes_of_moved {t u : State} {n : Nat} (h : ∀ a, a < n → u.ibufByte a = t.obufByte a) :
    u.ibufBytes 0 n = t.obufBytes 0 n :=
  List.map_congr_left fun a ha => by rw [Nat.zero_add]; exact h a (List.mem_range.mp ha)

/-- Settles O29: ECB_ENC left the ciphertext (O24), which ECB_DEC decrypts to the padded message (O23) and so completes
with the message (O25). -/
theorem ecbCommandsRoundTrip : Obligations.EcbCommandsRoundTrip := by
  intro s t u hwf _ hexec hcode hparams hkey hrounds hucode hilen hmoved
  have hlt : s.ilen.toNat < s.params.msgBytes := messageLength_lt_of_exec_ecbEnc hexec hcode
  obtain ⟨t', ht', -, -, -, holen, hobuf, -⟩ := ecbEncCompletes s hwf hlt
  obtain rfl : t = t' := Host.Outcome.next.inj (hexec.symm.trans ht')
  have hcipher : u.ibufBytes 0 u.ilen.toNat = ecbEncrypt (s.ibufBytes 0 s.ilen.toNat) u.key u.rounds.toNat := by
    rw [hilen, ibufBytes_of_moved hmoved, hobuf, hkey, hrounds]
  have hunpad : unpadBytes (ecbDecryptBlocks (u.ibufBytes 0 u.ilen.toNat) u.key u.rounds.toNat) =
      some (s.ibufBytes 0 s.ilen.toNat) := by
    rw [hcipher, ecbDecryptBlocks_ecbEncrypt, unpadBytes_padBytes]
  obtain ⟨h8, -⟩ := params_wf hwf
  obtain ⟨v, hv, -, hstatus, -, hvlen, -, hvbuf, -⟩ :=
    ecbDecCompletes u _ (hparams ▸ hwf) (by rw [hilen, hparams]; omega) (by rw [hilen]; omega)
      (by rw [hilen]; omega) hunpad
  rw [State.length_ibufBytes] at hvlen
  exact ⟨v, hv, (congrArg Status.errcode hstatus).trans hucode, BitVec.eq_of_toNat_eq hvlen, hvlen ▸ hvbuf⟩

end Sys2Proof.Machine
end

section
/-! PROOFS. The host's validation utilities (46_host_helpers.md R241, R242): hex digits in either case, the pairs of them
that are a key's bytes, and the white space that strip removes. -/

namespace Sys2Proof.Machine

/-! Hex digits. -/

/-- The three ranges of hex digits as character codes. -/
theorem isHexDigit_iff_toNat {c : Char} {v : Nat} : IsHexDigit c v ↔
    (48 ≤ c.toNat ∧ c.toNat ≤ 57 ∧ c.toNat = 48 + v) ∨ (97 ≤ c.toNat ∧ c.toNat ≤ 102 ∧ c.toNat + 10 = 97 + v) ∨
      (65 ≤ c.toNat ∧ c.toNat ≤ 70 ∧ c.toNat + 10 = 65 + v) := Iff.rfl

theorem toNat_lowerHex (c : Char) :
    (lowerHex c).toNat = if 65 ≤ c.toNat ∧ c.toNat ≤ 70 then c.toNat + 32 else c.toNat := by
  unfold lowerHex
  split
  next hupper => rw [Char.toNat_ofNat, if_pos (.inl (by omega))]
  next => rfl

theorem hexVal_eq_some {c : Char} {v : Nat} : hexVal c = some v ↔
    (48 ≤ c.toNat ∧ c.toNat ≤ 57 ∧ c.toNat = 48 + v) ∨ (97 ≤ c.toNat ∧ c.toNat ≤ 102 ∧ c.toNat + 10 = 97 + v) := by
  unfold hexVal
  split_ifs
  · rw [Option.some.injEq]; omega
  · rw [Option.some.injEq]; omega
  · simp only [false_iff]; omega

/-- The value of a digit after `lowercase` is its value in either case (R241). -/
theorem hexVal_lowerHex_eq_some {c : Char} {v : Nat} : hexVal (lowerHex c) = some v ↔ IsHexDigit c v := by
  rw [hexVal_eq_some, isHexDigit_iff_toNat, toNat_lowerHex]
  split <;> omega

theorem exists_isHexDigit {c : Char} :
    (∃ v, IsHexDigit c v) ↔ ('0' ≤ c ∧ c ≤ '9') ∨ ('a' ≤ c ∧ c ≤ 'f') ∨ ('A' ≤ c ∧ c ≤ 'F') := by
  constructor
  · rintro ⟨v, ⟨hlo, hhi, -⟩ | ⟨hlo, hhi, -⟩ | ⟨hlo, hhi, -⟩⟩
    · exact .inl ⟨hlo, hhi⟩
    · exact .inr (.inl ⟨hlo, hhi⟩)
    · exact .inr (.inr ⟨hlo, hhi⟩)
  · rintro (⟨hlo, hhi⟩ | ⟨hlo, hhi⟩ | ⟨hlo, hhi⟩)
    · exact ⟨c.toNat - 48, .inl ⟨hlo, hhi, (Nat.add_sub_of_le hlo).symm⟩⟩
    · have h : 97 ≤ c.toNat := hlo
      exact ⟨c.toNat - 87, isHexDigit_iff_toNat.mpr (.inr (.inl ⟨hlo, hhi, by omega⟩))⟩
    · have h : 65 ≤ c.toNat := hlo
      exact ⟨c.toNat - 55, isHexDigit_iff_toNat.mpr (.inr (.inr ⟨hlo, hhi, by omega⟩))⟩

/-- Settles O59: a character has a value after `lowercase` exactly when it is a hex digit of either case. -/
theorem validHexCharacters : Obligations.ValidHexCharacters := by
  intro requireNonempty h
  have hdigit : ∀ c, (hexVal (lowerHex c)).isSome = true ↔
      ('0' ≤ c ∧ c ≤ '9') ∨ ('a' ≤ c ∧ c ≤ 'f') ∨ ('A' ≤ c ∧ c ≤ 'F') := by
    intro c
    simp only [Option.isSome_iff_exists, hexVal_lowerHex_eq_some, exists_isHexDigit]
  simp [isValidHex, hdigit]

/-! Pairs of digits. -/

/-- The byte of two hex digits, the high one first (R241). -/
def IsHexPair (hi lo : Char) (x : Byte) : Prop :=
  ∃ a b : Nat, IsHexDigit hi a ∧ IsHexDigit lo b ∧ x = BitVec.ofNat 8 (16 * a + b)

theorem hexPairs_cons_cons {hi lo : Char} {rest : List Char} {k : Bytes} :
    hexPairs (lowerHex hi :: lowerHex lo :: rest) = some k ↔
      ∃ x bs, IsHexPair hi lo x ∧ hexPairs rest = some bs ∧ k = x :: bs := by
  simp only [IsHexPair, ← hexVal_lowerHex_eq_some, hexPairs]
  cases hexVal (lowerHex hi) <;> cases hexVal (lowerHex lo) <;> cases hexPairs rest <;> simp [eq_comm]

/-- `hexPairs` reads one byte of each pair, and no digit is left over. -/
theorem hexPairs_map_lowerHex {digits : List Char} {k : Bytes} :
    hexPairs (digits.map lowerHex) = some k ↔ digits.length = 2 * k.length ∧
      ∀ i, i < k.length → IsHexPair (digits.getD (2 * i) '0') (digits.getD (2 * i + 1) '0') (k.getD i 0#8) := by
  match digits, k with
  | [], [] => simp [hexPairs]
  | [], x :: bs => simp [hexPairs]
  | [_], k =>
    have hodd : ¬1 = 2 * k.length := by omega
    simp [hexPairs, hodd]
  | hi :: lo :: rest, [] => simp [hexPairs_cons_cons]
  | hi :: lo :: rest, x :: bs =>
    have ih := hexPairs_map_lowerHex (digits := rest) (k := bs)
    have hcons : hexPairs ((hi :: lo :: rest).map lowerHex) = some (x :: bs) ↔
        IsHexPair hi lo x ∧ hexPairs (rest.map lowerHex) = some bs := by
      simp [hexPairs_cons_cons]
    simp only [hcons, ih, List.length_cons, Nat.forall_lt_succ_left]
    simp [Nat.mul_add, and_left_comm]

theorem isHexDigit_of_hexPairs {digits : List Char} {k : Bytes} (h : hexPairs (digits.map lowerHex) = some k) {c : Char}
    (hc : c ∈ digits) : ∃ v, IsHexDigit c v := by
  match digits, h, hc with
  | [_], h, _ => simp [hexPairs] at h
  | hi :: lo :: rest, h, hc =>
    obtain ⟨x, bs, ⟨a, b, hhi, hlo, -⟩, hrest, -⟩ := hexPairs_cons_cons.mp h
    rcases List.mem_cons.mp hc with rfl | hc
    · exact ⟨a, hhi⟩
    rcases List.mem_cons.mp hc with rfl | hc
    · exact ⟨b, hlo⟩
    exact isHexDigit_of_hexPairs hrest hc

/-! White space. -/

theorem isStripped_eq_true {c : Char} : isStripped c = true ↔ IsWhite c := by
  simp [isStripped, IsWhite]

theorem IsHexDigit.not_isStripped {c : Char} {v : Nat} (h : IsHexDigit c v) : ¬isStripped c = true := by
  rw [isStripped_eq_true, IsWhite]
  rw [isHexDigit_iff_toNat] at h
  omega

theorem strip_eq_rdropWhile (h : List Char) : strip h = (h.dropWhile isStripped).rdropWhile isStripped := rfl

/-- What strip removes is white space, before and after what it leaves. -/
theorem exists_eq_append_strip (h : List Char) : ∃ before after : List Char, h = before ++ strip h ++ after ∧
    (∀ c ∈ before, IsWhite c) ∧ ∀ c ∈ after, IsWhite c := by
  refine ⟨h.takeWhile isStripped, (h.dropWhile isStripped).rtakeWhile isStripped, ?_, fun c hc => ?_, fun c hc => ?_⟩
  · rw [List.append_assoc, strip_eq_rdropWhile, List.rdropWhile_append_rtakeWhile, List.takeWhile_append_dropWhile]
  · exact isStripped_eq_true.mp (List.mem_takeWhile_imp hc)
  · exact isStripped_eq_true.mp (List.mem_rtakeWhile_imp hc)

/-- strip takes all the white space around a string that has none. -/
theorem strip_append {before digits after : List Char} (hbefore : ∀ c ∈ before, IsWhite c)
    (hafter : ∀ c ∈ after, IsWhite c) (hne : digits ≠ []) (hdigits : ∀ c ∈ digits, ¬isStripped c = true) :
    strip (before ++ digits ++ after) = digits := by
  simp only [← isStripped_eq_true] at hbefore hafter
  have hfront : (digits ++ after).dropWhile isStripped = digits ++ after := by
    obtain ⟨c, rest, rfl⟩ := List.exists_cons_of_ne_nil hne
    exact List.dropWhile_cons_of_neg (hdigits c List.mem_cons_self)
  have hback : digits.reverse.dropWhile isStripped = digits.reverse :=
    List.dropWhile_eq_self_iff.mpr fun _ => hdigits _ (List.mem_reverse.mp (List.getElem_mem _))
  rw [strip, List.append_assoc, List.dropWhile_append_of_pos hbefore, hfront, List.reverse_append,
    List.dropWhile_append_of_pos fun c hc => hafter c (List.mem_reverse.mp hc), hback, List.reverse_reverse]

/-! parseKey. -/

theorem parseKey_eq_ok {h : List Char} {k : Bytes} : parseKey h = .ok k ↔
    (strip h).length = 32 ∧ hexPairs ((strip h).map lowerHex) = some k := by
  simp only [parseKey, List.length_map]
  split_ifs with hlen
  · simp [hlen]
  · cases hexPairs ((strip h).map lowerHex) <;> simp_all

theorem eq_invalidKeyFormat_of_parseKey {h : List Char} {e : HostError} (he : parseKey h = .error e) :
    e = .invalidKeyFormat := by
  simp only [parseKey] at he
  split_ifs at he
  · cases he; rfl
  · split at he <;> cases he
    rfl

/-- Settles O58: what strip leaves are the digits (`exists_eq_append_strip`, `strip_append`), and the key is read of their
pairs (`hexPairs_map_lowerHex`). -/
theorem parseKeyReadsHexPairs : Obligations.ParseKeyReadsHexPairs := by
  refine fun h => ⟨fun k => ?_, fun e => eq_invalidKeyFormat_of_parseKey⟩
  rw [parseKey_eq_ok]
  constructor
  · rintro ⟨hlen, hpairs⟩
    obtain ⟨before, after, heq, hbefore, hafter⟩ := exists_eq_append_strip h
    obtain ⟨hk, hbytes⟩ := hexPairs_map_lowerHex.mp hpairs
    have hk : k.length = 16 := by omega
    exact ⟨before, strip h, after, heq, hbefore, hafter, hlen, hk, fun i hi => hbytes i (hk.symm ▸ hi)⟩
  · rintro ⟨before, digits, after, rfl, hbefore, hafter, hlen, hk, hbytes⟩
    have hpairs : hexPairs (digits.map lowerHex) = some k :=
      hexPairs_map_lowerHex.mpr ⟨by rw [hlen, hk], by rw [hk]; exact hbytes⟩
    have hdigits : ∀ c ∈ digits, ¬isStripped c = true := fun c hc =>
      let ⟨_, hv⟩ := isHexDigit_of_hexPairs hpairs hc
      hv.not_isStripped
    rw [strip_append hbefore hafter (List.ne_nil_of_length_pos (by omega)) hdigits]
    exact ⟨hlen, hpairs⟩

end Sys2Proof.Machine
end

section
/-! PROOFS. The host's message calls (46_host_helpers.md R243): a script performed on the core as transactions and as steps,
what a call leaves an idle core running, and what the host collects after the command. -/

namespace Sys2Proof.Machine

/-! A script performed on the core (30_encoding.md R96). -/

theorem perform_cons_eq_some {x : Stmt} {rest : List Stmt} {s t : State} :
    perform (x :: rest) s = some t ↔ ∃ y, x.encode = some y ∧ perform rest (transact y s) = some t := by
  rw [perform]
  cases x.encode <;> simp

theorem perform_append (a b : List Stmt) (s : State) : perform (a ++ b) s = (perform a s).bind (perform b) := by
  induction a generalizing s with
  | nil => rfl
  | cons x rest ih =>
    rw [List.cons_append, perform, perform]
    cases x.encode with
    | none => rfl
    | some t => exact ih _

/-- A script that can be performed is a list of transactions: they are its events, and performing it makes them one after
the other. -/
theorem exists_transactions_of_perform {script : List Stmt} {s t : State} (h : perform script s = some t) :
    ∃ hs : List Transaction, scriptEvents script = some (hs.map Event.host) ∧ s.afterHost hs = t := by
  induction script generalizing s with
  | nil => exact ⟨[], rfl, Option.some.inj h⟩
  | cons x rest ih =>
    obtain ⟨y, hx, hrest⟩ := perform_cons_eq_some.mp h
    obtain ⟨hs, hevents, hafter⟩ := ih hrest
    exact ⟨y :: hs, by simp [scriptEvents, hx, hevents], hafter⟩

/-- A script as steps (20_memory.md R73): its transactions, then the Core's turn, the schedule being empty (log 3). -/
theorem stepsTo_script {script : List Stmt} {s t u : State} (h : perform script s = some t)
    (hturn : coreTurn t = .next u) :
    ∃ es, scriptEvents script = some es ∧ stepsTo (es.length + 1) (s.setSchedule es) = .next (u.setSchedule []) := by
  obtain ⟨hs, hevents, rfl⟩ := exists_transactions_of_perform h
  have hturn' : coreTurn ((s.afterHost hs).setSchedule []) = .next (u.setSchedule []) := by
    have hcomm := coreTurn_setTraffic (s.afterHost hs) (s.afterHost hs).answer []
    rw [hturn] at hcomm
    rw [show u.setSchedule [] = u.setTraffic (s.afterHost hs).answer [] from (coreTurn_traffic hturn).1 ▸ rfl]
    exact hcomm
  have hsteps := stepsTo_hostEvents s hs 1 []
  rw [List.append_nil] at hsteps
  refine ⟨_, hevents, ?_⟩
  rw [List.length_map, hsteps, stepsTo_succ, step_of_nil rfl, hturn']
  rfl

theorem params_of_perform {script : List Stmt} {s t : State} (h : perform script s = some t) : t.params = s.params := by
  induction script generalizing s with
  | nil => rw [Option.some.inj h]
  | cons x rest ih =>
    obtain ⟨y, -, hrest⟩ := perform_cons_eq_some.mp h
    exact (ih hrest).trans (effectOf_frame s y).1

/-! LOAD (30_encoding.md R97). -/

/-- t is s with the first n bytes of IBUF those of d, a missing byte 0x00; the bytes after them are not compared. -/
structure State.LoadedWith (s t : State) (d : Bytes) (n : Nat) : Prop where
  params : t.params = s.params
  status : t.status = s.status
  key : t.key = s.key
  rounds : t.rounds = s.rounds
  ilen : t.ilen = s.ilen
  byte : ∀ a, a < n → t.ibufByte a = d.getD a 0#8

/-- `WR IBUF[j]` on an idle core (20_memory.md R68). -/
theorem perform_ibufWord {s : State} {j : Nat} (hwf : s.params.wf = true) (hb : s.status.busy = false)
    (hj : 4 * j < s.params.msgBytes) (w : Word) :
    perform [.wr (.ibuf j) w] s = some { s.storeIbufWord j w with answer := some { resp := .okay, rdata := none } } := by
  obtain ⟨-, -, hcap, -⟩ := params_wf hwf
  have hoff := toNat_windowOffset hwf hj (base := 0x1000) (by decide)
  have hencode : Stmt.encode (.wr (.ibuf j) w) = some (.write (BitVec.ofNat 14 (0x1000 + 4 * j)) 4 w) := by
    rw [Stmt.encode, Place.offset, if_pos (by omega)]; rfl
  simp only [perform, hencode, transact]
  rw [effectOf_write_ibufWord hwf hj, locked_of_idle hb, answerTo_write_of_aligned s w (by omega)]

theorem getD_unbe32_be32 (b : Bytes) {i : Nat} (hi : i < 4) : (unbe32 (be32 b)).getD i 0#8 = b.getD i 0#8 := by
  have hbytes : unbe32 (be32 b) = [b.getD 0 0#8, b.getD 1 0#8, b.getD 2 0#8, b.getD 3 0#8] := unbe32_be32 _ _ _ _
  rw [hbytes]
  match i, hi with
  | 0, _ | 1, _ | 2, _ | 3, _ => rfl

/-- The bytes of LOAD's word j are bytes 4j to 4j+3 of the string, "the missing bytes of a last partial word taken as
0x00" (30_encoding.md R97). -/
theorem getD_unbe32_be32_slice (d : Bytes) (j : Nat) {i : Nat} (hi : i < 4) :
    (unbe32 (be32 (slice d (4 * j) (4 * j + 4)))).getD i 0#8 = d.getD (4 * j + i) 0#8 := by
  rw [getD_unbe32_be32 _ hi]
  simp [slice, hi]

/-- The IBUF words of LOAD on an idle core. -/
theorem perform_ibufWords {s : State} (d : Bytes) {m : Nat} (hwf : s.params.wf = true) (hb : s.status.busy = false)
    (hm : 4 * m < s.params.msgBytes + 4) :
    ∃ t, perform ((List.range m).map (fun j => .wr (.ibuf j) (be32 (slice d (4 * j) (4 * j + 4))))) s = some t ∧
      s.LoadedWith t d (4 * m) := by
  induction m with
  | zero => exact ⟨s, rfl, rfl, rfl, rfl, rfl, rfl, fun a ha => absurd ha (Nat.not_lt_zero a)⟩
  | succ m ih =>
    obtain ⟨t, ht, hload⟩ := ih (by omega)
    have hword := perform_ibufWord (s := t) (j := m) (hload.params ▸ hwf) (hload.status ▸ hb)
      (by rw [hload.params]; omega) (be32 (slice d (4 * m) (4 * m + 4)))
    refine ⟨{ t.storeIbufWord m (be32 (slice d (4 * m) (4 * m + 4))) with
      answer := some { resp := .okay, rdata := none } }, ?_, hload.params, hload.status, hload.key, hload.rounds, hload.ilen, fun a ha => ?_⟩
    · rw [List.range_succ, List.map_append, perform_append, ht]
      exact hword
    · show (t.storeIbufWord m _).ibufByte a = _
      by_cases hlt : a < 4 * m
      · rw [ibufByte_storeIbufWord_of_outside t m _ (.inl hlt), hload.byte a hlt]
      · obtain ⟨i, rfl⟩ := Nat.exists_eq_add_of_le (Nat.not_lt.mp hlt)
        rw [ibufByte_storeIbufWord t m _ (by omega), getD_unbe32_be32_slice d m (by omega)]

/-! A message call (46_host_helpers.md R243, R244). -/

/-- The core runs the command i on a message, with a key and 32 rounds (46_host_helpers.md R243). -/
structure State.RunsMessage (s : State) (i : Instr) (message keyBytes : Bytes) : Prop where
  busy : s.status.busy = true
  errcode : s.status.errcode = 0#4
  cmdreg : s.cmdreg = encode i
  key : s.key = keyOfBytes keyBytes
  rounds : s.rounds = 32#8
  ilen : s.ilen.toNat = message.length
  message : s.message = message

/-- LOAD and the CMD write on an idle core with the key and ROUNDS = 32 written. -/
theorem perform_messageStmts (i : Instr) {s : State} {message keyBytes : Bytes} (hwf : s.params.wf = true)
    (hb : s.status.busy = false) (hkey : s.key = keyOfBytes keyBytes) (hrounds : s.rounds = 32#8)
    (hlen : message.length ≤ s.params.msgBytes) :
    ∃ u, perform (messageStmts i message) s = some u ∧ u.RunsMessage i message keyBytes := by
  obtain ⟨-, -, hcap, -⟩ := params_wf hwf
  let s₁ : State := { s with ilen := BitVec.ofNat 32 message.length, answer := some { resp := .okay, rdata := none } }
  have hilen : s₁.ilen.toNat = message.length := by
    rw [BitVec.toNat_ofNat, Nat.mod_eq_of_lt (by omega)]
  obtain ⟨t, ht, hload⟩ := perform_ibufWords (s := s₁) message (m := (message.length + 3) / 4) hwf hb
    (by show _ < s.params.msgBytes + 4; omega)
  have hbt : t.status.busy = false := hload.status ▸ hb
  have hbytes : t.ibufBytes 0 message.length = message := by
    apply List.ext_getElem (by simp)
    intro a ha hamsg
    simp [State.ibufBytes, hload.byte a (by omega), hamsg]
  refine ⟨{ startCommand (encode i) t with answer := some { resp := .okay, rdata := none } }, ?_,
    rfl, rfl, rfl, hload.key.trans hkey, hload.rounds.trans hrounds, hload.ilen ▸ hilen, ?_⟩
  · rw [messageStmts, loadStmts, List.cons_append, perform_reg,
      transact_reg_of_idle (r := .ilen) (f := fun t => { t with ilen := _ }) hb rfl, perform_append, ht]
    simp only [Option.bind_some, perform_reg]
    rw [transact_reg_of_idle (r := .cmd) (f := startCommand _) hbt rfl]
    rfl
  · show t.ibufBytes 0 t.ilen.toNat = message
    rw [hload.ilen, hilen, hbytes]

/-- A message call on an idle core leaves it running the command. -/
theorem perform_messageCall (i : Instr) {s : State} {message keyBytes : Bytes} (hwf : s.params.wf = true)
    (hb : s.status.busy = false) (hk : keyBytes.length = 16) (hlen : message.length ≤ s.params.msgBytes) :
    ∃ script u, messageCall i message keyBytes = .ok script ∧ perform script s = some u ∧ u.params = s.params ∧
      u.RunsMessage i message keyBytes := by
  obtain ⟨setup, t, hsetup, ht, hbt, hkey, hrounds⟩ := perform_keyCall hb hk
  have hparams := params_of_perform ht
  obtain ⟨u, hu, hruns⟩ := perform_messageStmts i (hparams ▸ hwf) hbt hkey hrounds (hparams ▸ hlen)
  refine ⟨setup ++ messageStmts i message, u, by rw [messageCall, hsetup], ?_, (params_of_perform hu).trans hparams, hruns⟩
  rw [perform_append, ht]
  exact hu

/-! What the host collects. -/

theorem State.obufBytes_append (s : State) (m n : Nat) : s.obufBytes 0 m ++ s.obufBytes m n = s.obufBytes 0 (m + n) := by
  simp [State.obufBytes, List.range_add, Function.comp_def]

/-- An OBUF word of an idle core, as bytes (20_memory.md R69). -/
theorem unbe32_readWord_obufWord {s : State} {j : Nat} (hwf : s.params.wf = true) (hb : s.status.busy = false)
    (hj : 4 * j < s.params.msgBytes) : unbe32 (s.readWord (0x2000 + 4 * j)) = s.obufBytes (4 * j) 4 := by
  rw [State.readWord, target_obufWord hwf hj]
  exact (congrArg unbe32 (maskedWhileBusy_of_idle hb _)).trans (unbe32_be32_of_length (s.length_obufBytes _ _))

/-- The words of the window, as bytes, are the bytes of OBUF. -/
theorem flatMap_obufWords {s : State} {m : Nat} (hwf : s.params.wf = true) (hb : s.status.busy = false)
    (hm : 4 * m < s.params.msgBytes + 4) :
    (List.range m).flatMap (fun j => unbe32 (s.readWord (0x2000 + 4 * j))) = s.obufBytes 0 (4 * m) := by
  induction m with
  | zero => rfl
  | succ m ih =>
    rw [List.range_succ, List.flatMap_append, ih (by omega), List.flatMap_singleton,
      unbe32_readWord_obufWord hwf hb (by omega), State.obufBytes_append]
    rfl

/-- The host collects OBUF[0 ..< OLEN] of an idle core (46_host_helpers.md R243). -/
theorem hostCollect_of_idle {s : State} (hwf : s.params.wf = true) (hb : s.status.busy = false)
    (holen : s.olen.toNat ≤ s.params.msgBytes) : hostCollect s = s.obufBytes 0 s.olen.toNat := by
  have hread : s.readWord Reg.olen.offset = s.olen := (readWord_reg s .olen).trans (maskedWhileBusy_of_idle hb _)
  have hle : s.olen.toNat ≤ 4 * ((s.olen.toNat + 3) / 4) := by omega
  rw [hostCollect, hread, flatMap_obufWords hwf hb (by omega)]
  obtain ⟨n, hn⟩ := Nat.exists_eq_add_of_le hle
  rw [hn, ← State.obufBytes_append]
  simp [slice]

/-- The port's traffic plays no part in what the host collects. -/
theorem hostCollect_setTraffic (s : State) (a : Option Answer) (es : List Event) :
    hostCollect (s.setTraffic a es) = hostCollect s := rfl

/-- ECB_ENC's completion step on a host's message: no error, and the ciphertext for the host to collect. -/
theorem coreTurn_of_runsMessage_ecbEnc {s : State} {plaintext keyBytes : Bytes} (hwf : s.params.wf = true)
    (hruns : s.RunsMessage .ecbEnc plaintext keyBytes) (hlt : plaintext.length < s.params.msgBytes) :
    ∃ t, coreTurn s = .next t ∧ t.status.busy = false ∧ t.status.errcode = 0#4 ∧
      hostCollect t = ecbEncrypt plaintext (keyOfBytes keyBytes) 32 := by
  obtain ⟨hb, hcode, hcmd, hkey, hrounds, hilen, hmsg⟩ := hruns
  obtain ⟨t, ht, hinputs, hstatus, -, holen, hobuf, -⟩ := ecbEncCompletes s hwf (hilen ▸ hlt)
  have hturn : coreTurn s = .next t := (coreTurn_of_decode_ok hb (hcmd ▸ decode_encode .ecbEnc)).trans ht
  have hidle : t.status.busy = false := congrArg Status.busy hstatus
  have hparams : t.params = s.params := hinputs.1
  obtain ⟨h8, -⟩ := params_wf hwf
  refine ⟨t, hturn, hidle, (congrArg Status.errcode hstatus).trans hcode, ?_⟩
  rw [hostCollect_of_idle (hparams ▸ hwf) hidle (by rw [hparams]; omega), hobuf, hkey, hrounds]
  exact congrArg (ecbEncrypt · _ 32) hmsg

/-- Settles O60: the call leaves the core running ECB_ENC on the plaintext (`perform_messageCall`), the Core's turn leaves
the ciphertext to collect (`coreTurn_of_runsMessage_ecbEnc`), as a step (`stepsTo_script`) and inside the wait
(`performWait_of_busy`). -/
theorem hostEncryptGivesEcbEncrypt : Obligations.HostEncryptGivesEcbEncrypt := by
  intro s plaintext keyBytes hinv hb hk hlt
  obtain ⟨script, u, hscript, hu, hparams, hruns⟩ := perform_messageCall .ecbEnc hinv.params hb hk hlt.le
  obtain ⟨t, ht, hidle, hcode, hcollect⟩ := coreTurn_of_runsMessage_ecbEnc (hparams ▸ hinv.params) hruns (hparams ▸ hlt)
  obtain ⟨es, hes, hsteps⟩ := stepsTo_script hu ht
  refine ⟨script, es, t.setSchedule [], hscript, hes, hsteps, hcode, hcollect, fun turns => ?_⟩
  have hwait : performAndWait turns script s = some t.statusRead := by
    rw [performAndWait, hu]
    exact performWait_of_busy hruns.busy ht hidle turns
  rw [hostEncrypt, show hostEncryptCall plaintext keyBytes = .ok script from hscript]
  simp only [hwait, Option.map_some, State.statusRead, hostCollect_setTraffic, hcollect]

end Sys2Proof.Machine
end

section
/-! PROOFS. How a command ends (60_exceptions.md R260 to R264): the checks of R264 decide between success, a failure
that changes OLEN and STATUS only, and ECB_DEC's failure on bad padding, which leaves the decrypted blocks in OBUF. -/

namespace Sys2Proof.Machine

/-- LENGTH_OVERFLOW is the first check of each message command, at the capacity for PAD and ECB_ENC, above it for UNPAD
and ECB_DEC. -/
theorem exec_of_overflow {i : Instr} {s : State}
    (h : (s.messageLength ≥ s.params.msgBytes ∧ (i = .pad ∨ i = .ecbEnc)) ∨
      (s.messageLength > s.params.msgBytes ∧ (i = .unpad ∨ i = .ecbDec))) :
    exec i s = failMessage .lengthOverflow s := by
  rcases h with ⟨hlen, rfl | rfl⟩ | ⟨hlen, rfl | rfl⟩
  · exact if_pos hlen
  · exact if_pos hlen
  · exact if_pos hlen
  · exact if_pos hlen

/-- Settles O28: LENGTH_OVERFLOW has code 4 (60_exceptions.md R261, R263). -/
theorem lengthOverflowComesFirst : Obligations.LengthOverflowComesFirst :=
  fun _ _ h => (exec_of_overflow h).trans (failMessage_eq_next.mpr rfl)

/-- The three ways a command ends, each with the code that the checks of 60_exceptions.md R264 report. -/
inductive EndsByChecks (i : Instr) (s : State) : Prop
  /-- No check fails: ERRCODE keeps the 0 of the start. -/
  | success (t : State) (hcode : reportedCode i s = 0#4) (hexec : exec i s = .next t)
      (hstatus : s.CompletedWith t s.status.errcode)
  /-- The check for e fails before anything is stored. -/
  | failure (e : ErrorKind) (hcode : reportedCode i s = e.code) (hexec : exec i s = failMessage e s)
      (hkind : i = .ecbDec → e ≠ .invalidPadding)
  /-- ECB_DEC finds bad padding in the blocks that it has stored (45_ecb_driver.md R224). -/
  | badBlocks (hi : i = .ecbDec) (hcode : reportedCode i s = 2#4) (h8 : s.messageLength % 8 = 0)
      (hexec : exec i s = failMessage .invalidPadding s.storeDecrypted)

theorem endsByChecks_ecbEnc {s : State} (hwf : s.params.wf = true) : EndsByChecks .ecbEnc s := by
  by_cases hlong : s.messageLength ≥ s.params.msgBytes
  · exact .failure .lengthOverflow (if_pos hlong) (exec_of_overflow (.inl ⟨hlong, .inr rfl⟩)) nofun
  · obtain ⟨t, hexec, -, hstatus, -⟩ := ecbEncCompletes s hwf (Nat.not_le.mp hlong)
    exact .success t (if_neg hlong) hexec hstatus

theorem endsByChecks_pad {s : State} (hwf : s.params.wf = true) : EndsByChecks .pad s := by
  by_cases hlong : s.messageLength ≥ s.params.msgBytes
  · exact .failure .lengthOverflow (if_pos hlong) (exec_of_overflow (.inl ⟨hlong, .inl rfl⟩)) nofun
  · obtain ⟨t, hexec, -, hstatus, -⟩ := padCompletes s hwf (Nat.not_le.mp hlong)
    exact .success t (if_neg hlong) hexec hstatus

theorem endsByChecks_unpad {s : State} (hwf : s.params.wf = true) : EndsByChecks .unpad s := by
  by_cases hlong : s.messageLength > s.params.msgBytes
  · exact .failure .lengthOverflow (if_pos hlong) (exec_of_overflow (.inr ⟨hlong, .inl rfl⟩)) nofun
  have hle : s.messageLength ≤ s.params.msgBytes := Nat.not_lt.mp hlong
  have hcode : reportedCode .unpad s = if unpadBytes s.message = none then 2#4 else 0#4 := if_neg hlong
  cases hu : unpadBytes s.message with
  | none =>
    have hexec : exec .unpad s = failMessage .invalidPadding s := by rw [exec_unpad_of_le hle, hu, Option.elim_none]
    exact .failure .invalidPadding (hcode.trans (if_pos hu)) hexec nofun
  | some u =>
    obtain ⟨t, hexec, -, hstatus, -⟩ := unpadCompletes s u hwf hle hu
    exact .success t (hcode.trans (if_neg (by simp [hu]))) hexec hstatus

theorem endsByChecks_ecbDec {s : State} (hwf : s.params.wf = true) : EndsByChecks .ecbDec s := by
  by_cases hlong : s.messageLength > s.params.msgBytes
  · exact .failure .lengthOverflow (if_pos hlong) (exec_of_overflow (.inr ⟨hlong, .inr rfl⟩)) nofun
  have hle : s.messageLength ≤ s.params.msgBytes := Nat.not_lt.mp hlong
  by_cases hbad : s.messageLength % 8 ≠ 0 ∨ s.messageLength = 0
  · exact .failure .invalidCiphertextLength ((if_neg hlong).trans (if_pos hbad)) (exec_ecbDec_of_badLength hle hbad)
      nofun
  obtain ⟨h8, h0⟩ : s.messageLength % 8 = 0 ∧ s.messageLength ≠ 0 := by omega
  have hcode : reportedCode .ecbDec s = if unpadBytes s.decrypted = none then 2#4 else 0#4 :=
    (if_neg hlong).trans (if_neg hbad)
  cases hu : unpadBytes s.decrypted with
  | none =>
    have hexec : exec .ecbDec s = failMessage .invalidPadding s.storeDecrypted := by
      rw [exec_ecbDec_of_blocks hle h8 h0, hu, Option.elim_none]
    exact .badBlocks rfl (hcode.trans (if_pos hu)) h8 hexec
  | some u =>
    obtain ⟨t, hexec, -, hstatus, -⟩ := ecbDecCompletes s u hwf hle h8 h0 hu
    exact .success t (hcode.trans (if_neg (by simp [hu]))) hexec hstatus

/-- With legal parameters every command ends in one of the three ways; the block commands have no check. -/
theorem exec_endsByChecks (i : Instr) {s : State} (hwf : s.params.wf = true) : EndsByChecks i s := by
  cases i with
  | encBlock => exact .success _ rfl (exec_encBlock s) rfl
  | decBlock => exact .success _ rfl (exec_decBlock s) rfl
  | ecbEnc => exact endsByChecks_ecbEnc hwf
  | ecbDec => exact endsByChecks_ecbDec hwf
  | pad => exact endsByChecks_pad hwf
  | unpad => exact endsByChecks_unpad hwf

/-- Settles O32: each way of ending completes with the code of the first failing check. -/
theorem oneErrorInPriorityOrder : Obligations.OneErrorInPriorityOrder := by
  intro i s hwf hzero
  cases exec_endsByChecks i hwf with
  | success t hcode hexec hstatus => exact ⟨t, hexec, by rwa [hcode, ← hzero]⟩
  | failure e hcode hexec => exact ⟨_, hexec.trans (failMessage_eq_next.mpr rfl), by rw [hcode]; rfl⟩
  | badBlocks _ hcode _ hexec => exact ⟨_, hexec.trans (failMessage_eq_next.mpr rfl), by rw [hcode]; rfl⟩

/-! The completion step: the command of the latch, or INVALID_COMMAND. -/

theorem completionStep_of_decode_ok {s : State} {i : Instr} (h : decode s.cmdreg = .ok i) :
    completionStep s = exec i s := by
  rw [completionStep, h]

theorem completionStep_of_decode_error {s : State} {e : DecodeError} (h : decode s.cmdreg = .error e) :
    completionStep s = raiseError .invalidCommand s := by
  rw [completionStep, h]
  rfl

/-- The frame of the completion step is that of the commands; an illegal word changes STATUS only (40_sequencer.md R115,
R122). -/
theorem keepsInputs_of_completionStep {s t : State} (h : completionStep s = .next t) : s.KeepsInputs t := by
  cases hdec : decode s.cmdreg with
  | ok i => exact commandsKeepInputs i s t ((completionStep_of_decode_ok hdec).symm.trans h)
  | error e =>
    rw [completionStep_of_decode_error hdec, raiseError_eq_next] at h
    subst h
    exact ⟨rfl, rfl, rfl, rfl, rfl, rfl, rfl, rfl, fun _ => rfl, rfl, rfl, rfl, rfl⟩

/-- What 60_exceptions.md R263 says of the results after a command that failed. -/
structure FailedAs (i : Instr) (s t : State) : Prop where
  dout : t.dout = s.dout
  olen : t.olen = 0#32
  errcode : t.status.errcode = reportedCode i s
  obuf : ¬ (i = .ecbDec ∧ t.status.errcode = 2#4) → ∀ a, t.obufByte a = s.obufByte a
  decrypted : i = .ecbDec ∧ t.status.errcode = 2#4 →
    t.obufBytes 0 s.messageLength = s.decrypted ∧ s.KeepsObufFrom t s.messageLength

theorem ErrorKind.eq_invalidPadding_of_code {e : ErrorKind} (h : e.code = 2#4) : e = .invalidPadding := by
  cases e with
  | invalidPadding => rfl
  | invalidCiphertextLength | invalidCommand | lengthOverflow => cases h

theorem failedAs_of_exec {i : Instr} {s t : State} (hwf : s.params.wf = true) (hzero : s.status.errcode = 0#4)
    (h : exec i s = .next t) (hfailed : t.status.errcode ≠ 0#4) : FailedAs i s t := by
  cases exec_endsByChecks i hwf with
  | success t' _ hexec hstatus =>
    cases h.symm.trans hexec
    exact absurd ((congrArg Status.errcode hstatus).trans hzero) hfailed
  | failure e hcode hexec hkind =>
    obtain rfl := failMessage_eq_next.mp (hexec.symm.trans h)
    exact ⟨rfl, rfl, hcode.symm, fun _ _ => rfl,
      fun ⟨hi, htwo⟩ => absurd (ErrorKind.eq_invalidPadding_of_code htwo) (hkind hi)⟩
  | badBlocks hi hcode h8 hexec =>
    subst hi
    obtain rfl := failMessage_eq_next.mp (hexec.symm.trans h)
    exact ⟨rfl, rfl, hcode.symm, fun hnot => absurd ⟨rfl, rfl⟩ hnot,
      fun _ => ⟨obufBytes_of_storeDecrypted h8 rfl, keepsObufFrom_of_execEcbDec h⟩⟩

/-- Settles O33: a command that failed left its results as `FailedAs` says, and an illegal word changed STATUS only. -/
theorem failedCommandLeavesResults : Obligations.FailedCommandLeavesResults := by
  intro s t hwf hzero h hfailed
  refine ⟨keepsInputs_of_completionStep h, ?_⟩
  cases hdec : decode s.cmdreg with
  | ok i =>
    have hexec : exec i s = .next t := (completionStep_of_decode_ok hdec).symm.trans h
    obtain ⟨hbusy, hdone⟩ := exec_completes hexec
    obtain ⟨hdout, holen, hcode, hobuf, hdecrypted⟩ := failedAs_of_exec hwf hzero hexec hfailed
    simp only [Except.ok.injEq, reduceCtorEq, false_implies, implies_true, true_and, forall_eq']
    exact ⟨hdout, hdone, hbusy, ⟨holen, hcode⟩, hobuf, hdecrypted⟩
  | error e =>
    rw [completionStep_of_decode_error hdec, raiseError_eq_next] at h
    subst h
    exact ⟨rfl, rfl, rfl, nofun, fun _ _ => ⟨rfl, rfl⟩, fun _ _ => rfl, nofun⟩

end Sys2Proof.Machine
end

section
/-! PROOFS. The interrupt output (60_exceptions.md R267, R268): what the writes of CTRL, STATUS and CMD, a reset and a
completion do to it. -/

namespace Sys2Proof.Machine

/-- Without DONE no interrupt is asserted, whatever the enable. -/
theorem irq_of_not_done {s : State} (h : s.status.done = false) : s.irq = false := by rw [State.irq, h, Bool.false_and]

/-- With DONE the output is the enable. -/
theorem irq_of_done {s : State} (h : s.status.done = true) : s.irq = s.ctrl.ie := by rw [State.irq, h, Bool.true_and]

/-- After a completion the output is the enable, which no command changes. -/
theorem irq_of_coreTurn {s t : State} (hb : s.status.busy = true) (h : coreTurn s = .next t) : t.irq = s.ctrl.ie := by
  obtain ⟨-, hdone⟩ := coreTurn_completes hb h
  obtain ⟨-, hctrl, -⟩ := keepsInputs_of_completionStep ((coreTurn_of_busy hb).symm.trans h)
  rw [irq_of_done hdone, hctrl]

/-- Settles O52: a CTRL write sets the enable and keeps DONE; a STATUS write with bit 1 set, a start and a reset clear
DONE; a completion sets it (`irq_of_coreTurn`). -/
theorem interruptFollowsDoneAndEnable : Obligations.InterruptFollowsDoneAndEnable := by
  intro s w
  have hctrl : s.effectOf (.write 0x008#14 4 w) = { s with ctrl := { ie := w.getLsbD 0 } } := effectOf_reg s .ctrl w
  have hstatus : s.effectOf (.write 0x014#14 4 w) = { s with status := s.status.written w } := effectOf_reg s .status w
  rw [hctrl, hstatus]
  refine ⟨rfl, rfl, fun hdone hw => ?_, fun hw => ⟨?_, rfl⟩,
    fun hw => irq_of_not_done ?_, fun hb => irq_of_not_done ?_, irq_of_not_done rfl, fun t => irq_of_coreTurn⟩
  · rw [State.irq, hdone, hw, Bool.true_and]
  · rw [State.irq, hw, Bool.and_false]
  · rw [Status.written_done, hw, Bool.not_true, Bool.and_false]
  · rw [show s.effectOf (.write 0x010#14 4 w) = startCommand w s from effectOf_reg_of_idle (r := .cmd) hb rfl,
      startCommand_status, Status.started_done]

end Sys2Proof.Machine
end

section
/-! PROOFS. The machine right after a reset (70_reset_and_hazards.md R290, R291), and a command's word read back from the
opcode table (30_encoding.md R90). -/

namespace Sys2Proof.Machine

/-- After reset the buffers list nothing, the core is idle and OLEN is 0, whatever the legal parameters. -/
theorem inv_resetWith {p : Params} (h : p.wf = true) : (State.resetWith p).Inv where
  params := h
  ibuf_wf := List.Pairwise.nil
  ibuf_below := fun _ hc => absurd hc List.not_mem_nil
  obuf_wf := List.Pairwise.nil
  obuf_below := fun _ hc => absurd hc List.not_mem_nil
  running := fun hb => absurd hb Bool.false_ne_true
  errcode_le := Nat.zero_le _
  olen_le := Nat.zero_le _

/-- The parameters of the spec's examples are legal (00_scope.md R6). -/
theorem paramsOfExamples_wf : Params.ofExamples.wf = true := by decide

/-- Settles O54: every legal pair of parameters (`inv_resetWith`), the examples' among them. -/
theorem resetMeetsInvariant : Obligations.ResetMeetsInvariant :=
  ⟨inv_resetWith paramsOfExamples_wf, fun _ => inv_resetWith⟩

/-- Settles O53: the stored registers are those of `State.resetWith`; the reads are the laws of the register page, and
with BUSY and DONE clear neither the Core's turn nor the interrupt output does anything. -/
theorem resetRestoresRegisters : Obligations.ResetRestoresRegisters := by
  intro s
  have hidle : (resetEvent s).status.busy = false := rfl
  have hdone : (resetEvent s).status.done = false := rfl
  exact ⟨rfl, rfl, resetEvent_status s, rfl, resetEvent_olen s, rfl, rfl, rfl, rfl, irq_of_not_done hdone,
    readWord_reg _ .cmd, readWord_reg _ .id, readWord_reg _ .cap, coreTurn_of_idle hidle,
    resetEvent_params s, resetEvent_schedule s⟩

/-- A table word of 32 bits decodes as the CMD word of the same number. -/
theorem decodeTableWord_of_decode_ok {w : Word} {i : Instr} (h : decode w = .ok i) :
    decodeTableWord 32 w.toNat = some i := by
  rw [decodeTableWord, if_pos ⟨le_rfl, w.isLt⟩, BitVec.ofNat_toNat, BitVec.setWidth_eq, h]

/-- Settles O2: decoding inverts encoding (`decode_encode`), of the CMD word and so of the table word. -/
theorem decodeOfEncode : Obligations.DecodeOfEncode :=
  fun i => ⟨decode_encode i, decodeTableWord_of_decode_ok (decode_encode i)⟩

end Sys2Proof.Machine
end
